-- ==== Sys2Proof/Word.lean ====
section
/-! DEFINITION. The two word types of OWCORE: the byte of the register file and the 16-bit command word. -/

namespace Sys2Proof

/-- A byte: every host-visible register is one byte wide (10_state.md R22). -/
abbrev Byte := BitVec 8

/-- The 16-bit command word LCMD = (ARG, CMD) (30_encoding.md R80). -/
abbrev Word := BitVec 16

end Sys2Proof
end

