-- ==== Sys2Proof/Syntax.lean ====
section
/-! DEFINITION. The nine commands (30_encoding.md R85), one constructor per row of the opcode table, and the
assembler's lines (30_encoding.md R90). -/

namespace Sys2Proof

/-- A decoded command with its operand. The ARG byte of a command without an operand is a don't-care
(30_encoding.md R83) and is not kept. -/
inductive Instr where
  /-- OW_RESET: bus reset with presence detection (40_buslink.md R107). -/
  | owReset
  /-- OW_WBIT b: write one bit (40_buslink.md R109). -/
  | owWbit (b : Bool)
  /-- OW_RBIT: read one bit (40_buslink.md R111). -/
  | owRbit
  /-- OW_WBYTE v: write one byte (41_bytecodec.md R131). -/
  | owWbyte (v : Byte)
  /-- OW_RBYTE: read one byte (41_bytecodec.md R133). -/
  | owRbyte
  /-- OW_CRCLD v: load the CRC accumulator (42_crc8.md R155). -/
  | owCrcld (v : Byte)
  /-- OW_CRCUP v: fold one byte into the CRC accumulator (42_crc8.md R156). -/
  | owCrcup (v : Byte)
  /-- OW_SRST: start a fresh search session (43_romsearch.md R172). -/
  | owSrst
  /-- OW_SNEXT: one search pass (43_romsearch.md R175). -/
  | owSnext
  deriving DecidableEq, Repr

/-- The mnemonics of the opcode map (30_encoding.md R85). -/
inductive Mnemonic where
  | owReset | owWbit | owRbit | owWbyte | owRbyte | owCrcld | owCrcup | owSrst | owSnext
  deriving DecidableEq, Repr

/-- The three operand forms (30_encoding.md R83). -/
inductive OperandForm where
  | none
  | bit
  | imm8
  deriving DecidableEq, Repr

/-- The mnemonic of a command. -/
def Instr.mnemonic : Instr → Mnemonic
  | .owReset => .owReset
  | .owWbit _ => .owWbit
  | .owRbit => .owRbit
  | .owWbyte _ => .owWbyte
  | .owRbyte => .owRbyte
  | .owCrcld _ => .owCrcld
  | .owCrcup _ => .owCrcup
  | .owSrst => .owSrst
  | .owSnext => .owSnext

/-- The operand form of each mnemonic (30_encoding.md R85). -/
def Mnemonic.form : Mnemonic → OperandForm
  | .owReset => .none
  | .owWbit => .bit
  | .owRbit => .none
  | .owWbyte => .imm8
  | .owRbyte => .none
  | .owCrcld => .imm8
  | .owCrcup => .imm8
  | .owSrst => .none
  | .owSnext => .none

/-- One line of the assembler's syntax: a mnemonic and, where there is one, a numeric literal
(30_encoding.md R90). -/
structure AsmLine where
  mnemonic : Mnemonic
  operand  : Option Nat
  deriving DecidableEq, Repr

end Sys2Proof
end

