-- ==== Sys2Proof/Machine/Operands.lean ====
section
/-! DEFINITION. The fields of the command word (30_encoding.md R80 to R83), its byte order (20_memory.md R61),
the operand forms, and the bit operations on a byte that the bit and byte engines share. -/

namespace Sys2Proof.Machine

/-- OPC = LCMD[3:0] (30_encoding.md R81). -/
def opcField (w : Word) : BitVec 4 := w.extractLsb' 0 4

/-- RSV = LCMD[7:4] (30_encoding.md R82). -/
def rsvField (w : Word) : BitVec 4 := w.extractLsb' 4 4

/-- ARG = LCMD[15:8], the `imm8` operand, unsigned and unscaled (30_encoding.md R83, R87). -/
def argField (w : Word) : Byte := w.extractLsb' 8 8

/-- The `b` operand, LCMD[8] (30_encoding.md R83). -/
def bitOperand (w : Word) : Bool := w.getLsbD 8

/-- LCMD[15:9], which OW_WBIT requires to be 0 (30_encoding.md R83). -/
def wbitReserved (w : Word) : BitVec 7 := w.extractLsb' 9 7

/-- The command word (ARG, CMD): CMD is the low byte, ARG the high one (20_memory.md R61). -/
def commandWord (arg cmd : Byte) : Word := arg ++ cmd

/-- The ARG byte a bit operand occupies: b in bit 0, zeros above (30_encoding.md R90). -/
def bitArg (b : Bool) : Byte := if b then 0x01#8 else 0x00#8

/-- The operand byte a command needs in ARG, if it takes an operand (30_encoding.md R83). -/
def operandByte : Instr → Option Byte
  | .owReset => none
  | .owWbit b => some (bitArg b)
  | .owRbit => none
  | .owWbyte v => some v
  | .owRbyte => none
  | .owCrcld v => some v
  | .owCrcup v => some v
  | .owSrst => none
  | .owSnext => none

/-- `zext_8` of one bit (00_scope.md R7). -/
def bitToByte (v : Bool) : Byte := if v then 0x01#8 else 0x00#8

/-- The byte `r` with bit `i` made `v` and every other bit unchanged (41_bytecodec.md R133, 43_romsearch.md
R180). -/
def setBit (r : Byte) (i : Nat) (v : Bool) : Byte :=
  if v then r ||| (0x01#8 <<< i) else r &&& ~~~(0x01#8 <<< i)

/-- The bits of a byte in wire order, bit 0 first (41_bytecodec.md R130). -/
def wireBits (v : Byte) : List Bool := (List.range 8).map fun i => v.getLsbD i

end Sys2Proof.Machine
end

