-- ==== Sys2Proof/WellFormed.lean ====
section
/-! DEFINITION. When a line of the assembler's syntax is well formed (30_encoding.md R90). A term of Instr is
well formed by its type: its bit operand is a Bool and its byte operand a Byte. -/

namespace Sys2Proof

/-- The operand a form admits: none, a literal 0 or 1, a literal from 0x00 to 0xFF (30_encoding.md R90). -/
def OperandForm.admits : OperandForm → Option Nat → Bool
  | .none, .none => true
  | .none, .some _ => false
  | .bit, .some n => decide (n < 2)
  | .bit, .none => false
  | .imm8, .some n => decide (n < 256)
  | .imm8, .none => false

/-- The line's operand is present exactly where its mnemonic takes one, and in range. -/
def AsmLine.wellFormed (l : AsmLine) : Bool := l.mnemonic.form.admits l.operand

end Sys2Proof
end

