-- ==== Sys2Proof/Decode.lean ====
section
/-! DEFINITION. Decoding a command word, total on all 65536 words (30_encoding.md R86), the encoder (R90), and
the opcode table's match and mask (R85). -/

namespace Sys2Proof

open Sys2Proof.Machine

/-- Why a word is illegal: the cases of 30_encoding.md R88. -/
inductive IllegalWord where
  /-- RSV is not 0 (R84). -/
  | reservedBits
  /-- OPC is 0x0 or 0xA to 0xF. -/
  | opcode
  /-- OPC = 0x2 with w[15:9] not 0. -/
  | bitOperandRange
  deriving DecidableEq, Repr

/-- The outcome of decoding: a command, or Illegal (30_encoding.md R86). -/
inductive Decoded where
  | command (i : Instr)
  | illegal (why : IllegalWord)
  deriving DecidableEq, Repr

/-- The command of a word whose RSV field is 0, by its opcode (30_encoding.md R85, R86). -/
def decodeOpcode (w : Word) : Decoded :=
  if opcField w = 0x1#4 then .command .owReset
  else if opcField w = 0x2#4 then
    if wbitReserved w ≠ 0#7 then .illegal .bitOperandRange else .command (.owWbit (bitOperand w))
  else if opcField w = 0x3#4 then .command .owRbit
  else if opcField w = 0x4#4 then .command (.owWbyte (argField w))
  else if opcField w = 0x5#4 then .command .owRbyte
  else if opcField w = 0x6#4 then .command (.owCrcld (argField w))
  else if opcField w = 0x7#4 then .command (.owCrcup (argField w))
  else if opcField w = 0x8#4 then .command .owSrst
  else if opcField w = 0x9#4 then .command .owSnext
  else .illegal .opcode

/-- Decode (30_encoding.md R86): RSV is checked first, whatever OPC holds (R84). -/
def decode (w : Word) : Decoded :=
  if rsvField w ≠ 0#4 then .illegal .reservedBits else decodeOpcode w

/-- Decode from the two register bytes, CMD at the lower offset (20_memory.md R61). -/
def decodeBytes (cmd arg : Byte) : Decoded := decode (commandWord arg cmd)

/-- The command, or none where the word is Illegal. -/
def Decoded.command? : Decoded → Option Instr
  | .command i => some i
  | .illegal _ => none

/-- The opcode numbers (30_encoding.md R85). -/
def Mnemonic.opcode : Mnemonic → BitVec 4
  | .owReset => 0x1#4
  | .owWbit => 0x2#4
  | .owRbit => 0x3#4
  | .owWbyte => 0x4#4
  | .owRbyte => 0x5#4
  | .owCrcld => 0x6#4
  | .owCrcup => 0x7#4
  | .owSrst => 0x8#4
  | .owSnext => 0x9#4

/-- The byte the HOST writes to CMD for a mnemonic: RSV = 0 and the opcode (30_encoding.md R80). -/
def Mnemonic.commandByte (m : Mnemonic) : Byte := 0x0#4 ++ m.opcode

/-- The byte the HOST writes to CMD for a command. -/
def commandByte (i : Instr) : Byte := i.mnemonic.commandByte

/-- The word the assembler writes: ARG is the operand, or 0x00 where there is none (30_encoding.md R90). -/
def encode (i : Instr) : Word := commandWord ((operandByte i).getD 0x00#8) (commandByte i)

/-- The opcode table's `match` (30_encoding.md R85). -/
def Mnemonic.tableMatch : Mnemonic → Word
  | .owReset => 0x0001#16
  | .owWbit => 0x0002#16
  | .owRbit => 0x0003#16
  | .owWbyte => 0x0004#16
  | .owRbyte => 0x0005#16
  | .owCrcld => 0x0006#16
  | .owCrcup => 0x0007#16
  | .owSrst => 0x0008#16
  | .owSnext => 0x0009#16

/-- The opcode table's `mask` (30_encoding.md R85). -/
def Mnemonic.tableMask : Mnemonic → Word
  | .owReset => 0x00FF#16
  | .owWbit => 0xFEFF#16
  | .owRbit => 0x00FF#16
  | .owWbyte => 0x00FF#16
  | .owRbyte => 0x00FF#16
  | .owCrcld => 0x00FF#16
  | .owCrcup => 0x00FF#16
  | .owSrst => 0x00FF#16
  | .owSnext => 0x00FF#16

/-- The command a well-formed line of the assembler's syntax stands for (30_encoding.md R90). -/
def AsmLine.assemble : AsmLine → Option Instr
  | ⟨.owReset, .none⟩ => some .owReset
  | ⟨.owWbit, .some n⟩ => if n < 2 then some (.owWbit (decide (n = 1))) else none
  | ⟨.owRbit, .none⟩ => some .owRbit
  | ⟨.owWbyte, .some n⟩ => if n < 256 then some (.owWbyte (BitVec.ofNat 8 n)) else none
  | ⟨.owRbyte, .none⟩ => some .owRbyte
  | ⟨.owCrcld, .some n⟩ => if n < 256 then some (.owCrcld (BitVec.ofNat 8 n)) else none
  | ⟨.owCrcup, .some n⟩ => if n < 256 then some (.owCrcup (BitVec.ofNat 8 n)) else none
  | ⟨.owSrst, .none⟩ => some .owSrst
  | ⟨.owSnext, .none⟩ => some .owSnext
  | ⟨_, _⟩ => none

/-- The instruction the decoder reads from the bits `w` of a table row `nbits` wide: byte 0 is CMD, byte 1 is
ARG (20_memory.md R61), and every bit above `nbits` is 0. -/
def decodeTableWord (nbits w : Nat) : Option Instr :=
  let bits := w % 2 ^ nbits
  (decodeBytes (BitVec.ofNat 8 bits) (BitVec.ofNat 8 (bits / 256))).command?

end Sys2Proof
end

