-- ==== Sys2Proof/Bus.lean ====
section
/-! DEFINITION. What passes between OWCORE and the 1-Wire line: the events of the bus trace (10_state.md R41)
and the kinds of line sample (40_buslink.md R104). A line level is a Bool, true for high (00_scope.md R10). -/

namespace Sys2Proof

/-- One event of the bus trace (10_state.md R41). -/
inductive BusEvent where
  /-- RST(p, idle): a reset slot with its presence sample and its idle answer. -/
  | rst (p idle : Bool)
  /-- W(b): a write slot. -/
  | w (b : Bool)
  /-- R(v): a read slot with its sample. -/
  | r (v : Bool)
  /-- ABORT: a slot cut short by hardware reset (70_reset_and_hazards.md R242). -/
  | abort
  deriving DecidableEq, Repr

/-- The kind of a line sample (40_buslink.md R104). -/
inductive SampleKind where
  | presence
  | idle
  | read
  deriving DecidableEq, Repr

/-- A BUS agent: it answers each sample, and the answer may depend on the whole bus trace so far and on the
kind of the sample (40_buslink.md R104). -/
abbrev Oracle := List BusEvent → SampleKind → Bool

end Sys2Proof
end

