-- ==== Sys2Proof/Config.lean ====
section
/-! DEFINITION. What an integration of OWCORE fixes (00_scope.md R6) and the free values: constants with no
body, of which nothing can be proved. -/

namespace Sys2Proof

/-- The BUS of each instance: the answer to every line sample, any bit whatever (40_buslink.md R104, R105;
93_implementation_defined.md I7, I8). Log entry 2. -/
opaque Config.busSample : Nat → Oracle

/-- What a read gets back while BUSY = 1, by instance and by draw number: any value (20_memory.md R66;
93_implementation_defined.md I3). Log entry 4. -/
opaque Config.busyRead : Nat → Nat → Byte

/-- OW_BASE of each instance's register window, OPEN (20_memory.md R69, R77). -/
opaque Config.owBase : Nat → Nat

/-- F_CLK, OPEN (70_reset_and_hazards.md R247). No rule reads it. -/
opaque Config.fClk : Nat

/-- N_IDLE less one, OPEN. -/
opaque Config.nIdlePred : Nat

/-- N_INST less one, OPEN. -/
opaque Config.nInstPred : Nat

/-- N_IDLE ≥ 1, the number of samples of the secondary check (40_buslink.md R106). A model takes their
outcome as one oracle bit, so no rule reads it. Log entry 3. -/
def Config.nIdle : Nat := Config.nIdlePred + 1

/-- N_INST ≥ 1, the number of instances (20_memory.md R77). -/
def Config.nInst : Nat := Config.nInstPred + 1

/-- The slot timings in microseconds (00_scope.md R6). They are integration constants the HOST cannot write
(70_reset_and_hazards.md R247), and no rule of the model depends on one (R258). Log entry 14. -/
structure Timing where
  tRstl : Nat
  tPds  : Nat
  tRstr : Nat
  tW1l  : Nat
  tW1h  : Nat
  tW0l  : Nat
  tW0h  : Nat
  tRl   : Nat
  tMsr  : Nat
  tRrec : Nat
  tGap  : Nat
  deriving DecidableEq, Repr

/-- The source's nominal values (00_scope.md R6), unaudited (90_conflicts.md C5). -/
def Config.nominal : Timing where
  tRstl := 480
  tPds  := 70
  tRstr := 400
  tW1l  := 6
  tW1h  := 64
  tW0l  := 60
  tW0h  := 10
  tRl   := 6
  tMsr  := 9
  tRrec := 55
  tGap  := 1

end Sys2Proof
end

