-- ==== Sys2Proof/Machine/HostLang.lean ====
section
/-! DEFINITION. The HOST's program and the HOST that runs it: register accesses and control flow (00_scope.md R13;
30_encoding.md R91). The language is the HOST's own and no part of OWCORE (R91): the one here has host variables,
host memory `hmem`, arithmetic on host words, conditional and unconditional jumps. Log entries 9 and 26. -/

namespace Sys2Proof.Machine

/-- A HOST value. -/
abbrev HostWord := BitVec 64

/-- The width of a HOST access: one byte, or anything wider (20_memory.md R62). -/
inductive Width where
  | byte
  | wider
  deriving DecidableEq, Repr

/-- The operators of the HOST's expressions. A comparison gives 1 or 0. -/
inductive HostBin where
  | add | sub | mul | and | or | xor | shl | shr | eq | ne | lt
  deriving DecidableEq, Repr

/-- The HOST's expressions. -/
inductive HostExpr where
  | const (v : HostWord)
  /-- A host variable. -/
  | var (x : Nat)
  /-- A cell of host memory, `hmem[addr]`. -/
  | mem (addr : HostExpr)
  | bin (op : HostBin) (a b : HostExpr)
  deriving DecidableEq, Repr

/-- One operation of a HOST program. -/
inductive HostOp where
  /-- `x <- RegRead(off)`. -/
  | read (width : Width) (off : HostExpr) (x : Nat)
  /-- `RegWrite(off, v)`, with the low byte of `v`. -/
  | write (width : Width) (off v : HostExpr)
  /-- OW_WAIT: read STATUS until BUSY = 0 (30_encoding.md R91), setting no variable (log entry 27). -/
  | wait
  /-- `x <- e`. -/
  | set (x : Nat) (e : HostExpr)
  /-- `hmem[addr] <- e`. -/
  | store (addr e : HostExpr)
  /-- `if c goto` the operation `by_` places on: a jump from its own place, taken where `c` is not 0. -/
  | branch (c : HostExpr) (by_ : Int)
  deriving DecidableEq, Repr

/-- The HOST: its program, the place it has reached, its variables and its memory. The last two are lists of
(number, value) pairs in one canonical form (`cellsWf`); an unlisted one holds 0. -/
structure HostState where
  program : List HostOp
  pc      : Nat
  vars    : List (Nat × HostWord)
  mem     : List (Nat × HostWord)
  deriving DecidableEq, Repr

/-- What the HOST does when it moves, its expressions evaluated. -/
inductive HostMove where
  /-- The program has run to its end. -/
  | ended
  | read (width : Width) (off : Nat) (x : Nat)
  | write (width : Width) (off : Nat) (v : Byte)
  /-- One poll of OW_WAIT. -/
  | poll
  /-- A computation or a jump of the HOST's own, with the HOST after it. -/
  | own (h : HostState)
  deriving DecidableEq, Repr

/-! ### Cells -/

/-- The canonical form: numbers strictly rising, no entry equal to what an unlisted one holds. -/
abbrev cellsWf (c : List (Nat × HostWord)) : Prop :=
  (c.map Prod.fst).Pairwise (· < ·) ∧ ∀ p ∈ c, p.2 ≠ 0

/-- The value at a number. -/
def cellGet : List (Nat × HostWord) → Nat → HostWord
  | [], _ => 0
  | (k, v) :: rest, a => if a = k then v else cellGet rest a

/-- An entry put before a list, unless it equals what an unlisted one holds. -/
def cellCons (a : Nat) (v : HostWord) (rest : List (Nat × HostWord)) : List (Nat × HostWord) :=
  if v = 0 then rest else (a, v) :: rest

/-- The cells with the value at a number made `v`. -/
def cellPut : List (Nat × HostWord) → Nat → HostWord → List (Nat × HostWord)
  | [], a, v => cellCons a v []
  | (k, w) :: rest, a, v =>
    if a < k then cellCons a v ((k, w) :: rest)
    else if a = k then cellCons a v rest
    else (k, w) :: cellPut rest a v

/-! ### Running -/

/-- 1 where a condition holds, else 0. -/
def hostBool (c : Bool) : HostWord := if c then 1 else 0

/-- The value of an operator. Arithmetic wraps, comparison is unsigned, and a shift by 64 or more gives 0. -/
def HostBin.eval : HostBin → HostWord → HostWord → HostWord
  | .add, a, b => a + b
  | .sub, a, b => a - b
  | .mul, a, b => a * b
  | .and, a, b => a &&& b
  | .or, a, b => a ||| b
  | .xor, a, b => a ^^^ b
  | .shl, a, b => if b.toNat < 64 then a <<< b.toNat else 0
  | .shr, a, b => if b.toNat < 64 then a >>> b.toNat else 0
  | .eq, a, b => hostBool (a == b)
  | .ne, a, b => hostBool (a != b)
  | .lt, a, b => hostBool (decide (a.toNat < b.toNat))

/-- The value of an expression over the HOST's variables and memory. -/
def HostState.eval (h : HostState) : HostExpr → HostWord
  | .const v => v
  | .var x => cellGet h.vars x
  | .mem addr => cellGet h.mem (h.eval addr).toNat
  | .bin op a b => op.eval (h.eval a) (h.eval b)

/-- The HOST at the next operation. -/
def HostState.goOn (h : HostState) : HostState := { h with pc := h.pc + 1 }

/-- The HOST with a variable made `v`, at the next operation. -/
def HostState.assign (x : Nat) (v : HostWord) (h : HostState) : HostState :=
  { h with vars := cellPut h.vars x v, pc := h.pc + 1 }

/-- The HOST that has read `v` into a variable, at the next operation. -/
def HostState.receive (x : Nat) (v : Byte) (h : HostState) : HostState := h.assign x (v.setWidth 64)

/-- The HOST with a cell of its memory made `v`, at the next operation. -/
def HostState.storeCell (addr : Nat) (v : HostWord) (h : HostState) : HostState :=
  { h with mem := cellPut h.mem addr v, pc := h.pc + 1 }

/-- The HOST `by_` operations on, or back. -/
def HostState.jump (by_ : Int) (h : HostState) : HostState := { h with pc := (h.pc + by_).toNat }

/-- What the HOST does at an operation, with its expressions' values. -/
def HostState.moveOf (h : HostState) : HostOp → HostMove
  | .read width off x => .read width (h.eval off).toNat x
  | .write width off v => .write width (h.eval off).toNat ((h.eval v).setWidth 8)
  | .wait => .poll
  | .set x e => .own (h.assign x (h.eval e))
  | .store addr e => .own (h.storeCell (h.eval addr).toNat (h.eval e))
  | .branch c by_ => .own (if h.eval c ≠ 0 then h.jump by_ else h.goOn)

/-- What the HOST does next: the operation at its place in the program. -/
def HostState.move (h : HostState) : HostMove :=
  match h.program[h.pc]? with
  | none => .ended
  | some op => h.moveOf op

/-- A move that accesses a register. -/
def HostMove.accesses : HostMove → Bool
  | .ended => false
  | .read _ _ _ => true
  | .write _ _ _ => true
  | .poll => true
  | .own _ => false

/-- The HOST after its next move, where that is one of its own. -/
def HostState.ownTurn (h : HostState) : HostState :=
  match h.move with
  | .ended => h
  | .read _ _ _ => h
  | .write _ _ _ => h
  | .poll => h
  | .own h' => h'

/-- The HOST after `n` moves of its own. -/
def HostState.ownTurns : Nat → HostState → HostState
  | 0, h => h
  | n + 1, h => HostState.ownTurns n h.ownTurn

/-- The HOST program has executed its last access (00_scope.md R13): however long it goes on by itself, it comes to
no access. -/
def HostState.Finished (h : HostState) : Prop := ∀ n, (HostState.ownTurns n h).move.accesses = false

/-- The HOST's variables and memory are in canonical form. -/
abbrev HostState.wf (h : HostState) : Prop := cellsWf h.vars ∧ cellsWf h.mem

/-- A HOST at the start of a program, with every variable 0. -/
def HostState.start (program : List HostOp) (mem : List (Nat × HostWord)) : HostState where
  program := program
  pc := 0
  vars := []
  mem := mem

end Sys2Proof.Machine
end

