-- ==== Sys2Proof/Machine/State.lean ====
section
/-! DEFINITION. The state of one OWCORE instance (10_state.md R22 to R43), with the HOST that drives it
(00_scope.md R5, R14), as plain data, and the state after reset (70_reset_and_hazards.md R240). -/

namespace Sys2Proof.Machine

/-- The RESULT codes (10_state.md R26). -/
inductive Result where
  /-- 0: no command has completed since reset. -/
  | none
  /-- 1: the command completed. -/
  | ok
  /-- 2: the line was sampled low at the presence instant. -/
  | presence
  /-- 3: the reset completed but no device answered. -/
  | noPresence
  /-- 4: the line never returned high. -/
  | busError
  /-- 5: the search pass returned a RomId. -/
  | found
  /-- 6: the search pass found no (further) device. -/
  | notFound
  /-- 7: the command word decodes to no command. -/
  | illegal
  deriving DecidableEq, Repr

/-- The ENGINE's phase (10_state.md R43): IDLE has BUSY = 0, RUNNING has BUSY = 1. -/
inductive Phase where
  | idle
  | running
  deriving DecidableEq, Repr

/-- Who moves next: an agent of 00_scope.md R5, or the platform's reset input with the number of the running
command's slots performed before the reset arrives (70_reset_and_hazards.md R242). -/
inductive Turn where
  | engine
  | host
  | hardwareReset (slots : Nat)
  deriving DecidableEq, Repr

/-- The state. `cmd` to `trace` are the spec's; `inst`, `host`, `schedule`, `reads` and `draws` are the model's
own (log entries 1, 4, 9, 10, 26). STATUS.BUSY is `phase` (10_state.md R43; log entry 12). -/
structure State where
  /-- CMD (R23). -/
  cmd : Byte
  /-- ARG (R24). -/
  arg : Byte
  /-- The engine phase (R43), which is STATUS.BUSY (R28). -/
  phase : Phase
  /-- The command latch LCMD (R39). -/
  lcmd : Word
  /-- STATUS.RESULT (R26). -/
  result : Result
  /-- STATUS.DONE, SearchSession.done (R29). -/
  done : Bool
  /-- DATA (R30). -/
  data : Byte
  /-- CRC (R31). -/
  crc : Byte
  /-- LASTDISC.LD, SearchSession.last_discrepancy (R32). -/
  ld : BitVec 7
  /-- ROM0 to ROM7, the RomId buffer (R34). -/
  rom : Vector Byte 8
  /-- DQ_DRIVE: true drives the line low (R42). -/
  dqDrive : Bool
  /-- The bus trace, oldest event first (R41). -/
  trace : List BusEvent
  /-- The number of this instance, one per logical bus (20_memory.md R77). -/
  inst : Nat
  /-- The HOST and its program (00_scope.md R13). -/
  host : HostState
  /-- Who moves next; when empty, the ENGINE if a command runs, else the HOST. -/
  schedule : List Turn
  /-- What the HOST's reads got back, oldest first (00_scope.md R14). -/
  reads : List Byte
  /-- How many free values have been drawn (20_memory.md R66). -/
  draws : Nat
  deriving DecidableEq, Repr

/-- Why the machine stops with a fault. -/
inductive Fault where
  /-- Raised by a HOST access at an offset outside 0x0 to 0xF: not an OWCORE access, and what it reaches is the
  platform's concern (20_memory.md R62). Safe: the model stops. Log entry 7. -/
  | outsideWindow
  deriving DecidableEq, Repr

/-- Why a step is refused. -/
inductive Refusal where
  /-- Raised by exec for an instruction without a meaning. Safe. -/
  | notModelled (mnemonic : String)
  /-- Raised by a HOST register write while BUSY = 1, a host-duty violation that a model refuses
  (20_memory.md R66, 60_exceptions.md R213). Safe. Log entry 5. -/
  | writeWhileBusy
  /-- Raised by a HOST access wider than one byte, which a model refuses (20_memory.md R62,
  60_exceptions.md R213). Safe. Log entry 6. -/
  | wideAccess
  deriving DecidableEq, Repr

/-- The RomId buffer with every byte 0x00. -/
def State.zeroRom : Vector Byte 8 := Vector.replicate 8 0x00#8

/-- The state after hardware reset (70_reset_and_hazards.md R240), with the empty trace a run starts from
(10_state.md R41). LCMD has no value in the spec: 0x0000 is a DESIGN CHOICE (log entry 8), as are the values of
the model's own fields (log entry 24). -/
def State.reset : State where
  cmd := 0x00#8
  arg := 0x00#8
  phase := .idle
  lcmd := 0x0000#16
  result := .none
  done := false
  data := 0x00#8
  crc := 0x00#8
  ld := 0#7
  rom := State.zeroRom
  dqDrive := false
  trace := []
  inst := 0
  host := HostState.start [] []
  schedule := []
  reads := []
  draws := 0

end Sys2Proof.Machine
end

