-- ==== Sys2Proof/Machine/Flags.lean ====
section
/-! DEFINITION. Every field of STATUS (10_state.md R25 to R29) and every outcome a command computes: the reset
slot's classification (40_buslink.md R107) and the session's done flag (43_romsearch.md R184). -/

namespace Sys2Proof.Machine

/-- The RESULT codes as three bits (10_state.md R26). -/
def resultCode : Result → BitVec 3
  | .none => 0#3
  | .ok => 1#3
  | .presence => 2#3
  | .noPresence => 3#3
  | .busError => 4#3
  | .found => 5#3
  | .notFound => 6#3
  | .illegal => 7#3

/-- STATUS.BUSY is 1 exactly in phase RUNNING (10_state.md R43). -/
def State.busy (s : State) : Bool := s.phase == .running

/-- STATUS = (000, DONE, RESULT, BUSY) (10_state.md R25). -/
def statusByte (s : State) : Byte :=
  0#3 ++ BitVec.ofBool s.done ++ resultCode s.result ++ BitVec.ofBool s.busy

/-- LASTDISC = (0, LD) (10_state.md R32). -/
def lastdiscByte (s : State) : Byte := 0#1 ++ s.ld

/-- RESULT out of a byte read from STATUS, `RegRead(0x2)[3:1]` (30_encoding.md R91). -/
def resultField (b : Byte) : BitVec 3 := b.extractLsb' 1 3

/-- The outcome of a reset slot (40_buslink.md R107): the idle check wins over the presence sample (R112). -/
def resetOutcome (p idle : Bool) : Result :=
  if idle = false then .busError else if p = false then .presence else .noPresence

/-- DONE <- bool(marker == 0) (43_romsearch.md R184). -/
def doneOf (marker : Nat) : Bool := marker == 0

end Sys2Proof.Machine
end

