-- ==== Sys2Proof/Machine/Ops.lean ====
section
/-! DEFINITION. The named operations over the state: register reads (20_memory.md R67), the RomId buffer
(10_state.md R34, R36), the line (40_buslink.md R101), the three bus slots (R106, R108, R110) and the completion
of a command (60_exceptions.md R210). OWCORE takes no exception and returns from none (60_exceptions.md R218,
R219): `complete` is the one operation by which every outcome, ILLEGAL among them, is reported. -/

namespace Sys2Proof.Machine

/-- ROM[j] for j from 0 to 7 (10_state.md R34). -/
def romByte (rom : Vector Byte 8) (j : Nat) : Byte := rom[j]?.getD 0x00#8

/-- The buffer with ROM[j] made `v`. -/
def romSetByte (rom : Vector Byte 8) (j : Nat) (v : Byte) : Vector Byte 8 := rom.setIfInBounds j v

/-- Address bit k, for k from 1 to 64: bit ((k-1) mod 8) of ROM[(k-1) div 8] (10_state.md R36). -/
def romBit (rom : Vector Byte 8) (k : Nat) : Bool := (romByte rom ((k - 1) / 8)).getLsbD ((k - 1) % 8)

/-- The value of the register at an offset while BUSY = 0 (10_state.md R22, 20_memory.md R67): reserved offsets
read 0x00 (10_state.md R33). -/
def regRead (s : State) (off : Nat) : Byte :=
  if off = 0x0 then s.cmd
  else if off = 0x1 then s.arg
  else if off = 0x2 then statusByte s
  else if off = 0x3 then s.data
  else if off = 0x4 then s.crc
  else if off = 0x5 then lastdiscByte s
  else if off < 0x8 then 0x00#8
  else romByte s.rom (off - 0x8)

/-- `complete(code)`: RESULT <- code, BUSY <- 0, phase IDLE, in one step (60_exceptions.md R210). -/
def complete (code : Result) (s : State) : State := { s with result := code, phase := .idle }

/-- An illegal word's whole effect: `complete(ILLEGAL)` (60_exceptions.md R211). -/
def completeIllegal (s : State) : State := complete .illegal s

/-- DATA <- v. -/
def setData (v : Byte) (s : State) : State := { s with data := v }

/-- CRC <- v. -/
def setCrc (v : Byte) (s : State) : State := { s with crc := v }

/-- LD <- v. -/
def setLd (v : BitVec 7) (s : State) : State := { s with ld := v }

/-- DONE <- v. -/
def setDone (v : Bool) (s : State) : State := { s with done := v }

/-- The RomId buffer <- rom. -/
def setRom (rom : Vector Byte 8) (s : State) : State := { s with rom := rom }

/-- DQ_DRIVE <- 1 (40_buslink.md R101). -/
def driveLow (s : State) : State := { s with dqDrive := true }

/-- DQ_DRIVE <- 0: the line is released to the pull-up (40_buslink.md R101). -/
def releaseLine (s : State) : State := { s with dqDrive := false }

/-- Append one event to the bus trace (10_state.md R41). -/
def emit (e : BusEvent) (s : State) : State := { s with trace := s.trace ++ [e] }

/-- The BUS agent of this instance (40_buslink.md R104; 20_memory.md R77). -/
def busOracle (s : State) : Oracle := Config.busSample s.inst

/-- `sample(kind)`: the line level, low if the master drives it low, else what the BUS answers to the trace so
far (40_buslink.md R100, R104, R105). It has no effect on the line. Log entry 19. -/
def sampleLine (o : Oracle) (kind : SampleKind) (s : State) : Bool := !s.dqDrive && o s.trace kind

/-- `Slot_Reset() -> (p, idle)` (40_buslink.md R106), with `idle` one oracle answer (log entry 3). -/
def slotReset (o : Oracle) (s : State) : (Bool × Bool) × State :=
  let s := releaseLine (driveLow s)
  let p := sampleLine o .presence s
  let idle := sampleLine o .idle s
  ((p, idle), emit (.rst p idle) s)

/-- `Slot_Write(b)` (40_buslink.md R108). -/
def slotWrite (b : Bool) (s : State) : State := emit (.w b) (releaseLine (driveLow s))

/-- `Slot_Read() -> v` (40_buslink.md R110). -/
def slotRead (o : Oracle) (s : State) : Bool × State :=
  let s := releaseLine (driveLow s)
  let v := sampleLine o .read s
  (v, emit (.r v) s)

/-- One write slot for each bit of a list, first to last. -/
def writeBits : List Bool → State → State
  | [], s => s
  | b :: bs, s => writeBits bs (slotWrite b s)

/-- The eight write slots of a byte, least-significant bit first (41_bytecodec.md R130, R131). -/
def writeByteSlots (v : Byte) (s : State) : State := writeBits (wireBits v) s

/-- `n` read slots from bit position `i` on, each sample stored in its bit of `r` (41_bytecodec.md R133). -/
def readBits (o : Oracle) : Nat → Nat → Byte → State → Byte × State
  | 0, _, r, s => (r, s)
  | n + 1, i, r, s => readBits o n (i + 1) (setBit r i (slotRead o s).1) (slotRead o s).2

end Sys2Proof.Machine
end

