-- ==== Sys2Proof/Machine/BusLink.lean ====
section
/-! DEFINITION. The commands of the bit-timing engine: OW_RESET, OW_WBIT, OW_RBIT (40_buslink.md). Each is
written over any BUS; its meaning gives it the BUS of the instance. -/

namespace Sys2Proof.Machine

/-- OW_RESET over a BUS `o` (40_buslink.md R107). -/
def owReset (o : Oracle) (s : State) : State :=
  let slot := slotReset o s
  complete (resetOutcome slot.1.1 slot.1.2) slot.2

/-- OW_WBIT b (40_buslink.md R109). It never fails (R115). -/
def owWbit (b : Bool) (s : State) : State := complete .ok (slotWrite b s)

/-- OW_RBIT over a BUS `o` (40_buslink.md R111). -/
def owRbit (o : Oracle) (s : State) : State :=
  let slot := slotRead o s
  complete .ok (setData (bitToByte slot.1) slot.2)

/-- The meaning of OW_RESET. -/
def execOwReset (s : State) : Host.Outcome State Fault Refusal := .next (owReset (busOracle s) s)

/-- The meaning of OW_WBIT. -/
def execOwWbit (b : Bool) (s : State) : Host.Outcome State Fault Refusal := .next (owWbit b s)

/-- The meaning of OW_RBIT. -/
def execOwRbit (s : State) : Host.Outcome State Fault Refusal := .next (owRbit (busOracle s) s)

end Sys2Proof.Machine
end

