-- ==== Sys2Proof/Machine/ByteCodec.lean ====
section
/-! DEFINITION. The commands of the byte serializer and deserializer: OW_WBYTE, OW_RBYTE (41_bytecodec.md). -/

namespace Sys2Proof.Machine

/-- OW_WBYTE v (41_bytecodec.md R131). It does not touch DATA or CRC (R135). -/
def owWbyte (v : Byte) (s : State) : State := complete .ok (writeByteSlots v s)

/-- OW_RBYTE over a BUS `o` (41_bytecodec.md R133). -/
def owRbyte (o : Oracle) (s : State) : State :=
  let slots := readBits o 8 0 0x00#8 s
  complete .ok (setData slots.1 slots.2)

/-- The meaning of OW_WBYTE. -/
def execOwWbyte (v : Byte) (s : State) : Host.Outcome State Fault Refusal := .next (owWbyte v s)

/-- The meaning of OW_RBYTE. -/
def execOwRbyte (s : State) : Host.Outcome State Fault Refusal := .next (owRbyte (busOracle s) s)

end Sys2Proof.Machine
end

