-- ==== Sys2Proof/Machine/Crc8.lean ====
section
/-! DEFINITION. The CRC8 accumulator (42_crc8.md): the table T, the update, the CRC of a byte sequence, and the
commands OW_CRCLD and OW_CRCUP. -/

namespace Sys2Proof.Machine

/-- One shift of the table's generator: the reflected polynomial is 0x8C (42_crc8.md R152). -/
def crcShift (c : Byte) : Byte := if c.getLsbD 0 then (c >>> 1) ^^^ 0x8C#8 else c >>> 1

/-- T[x], entry x of the CRC8 table: eight shifts of x (42_crc8.md R152). -/
def crcTable (x : Byte) : Byte :=
  crcShift (crcShift (crcShift (crcShift (crcShift (crcShift (crcShift (crcShift x)))))))

/-- `Update(crc, byte) -> T[crc ^ byte]` (42_crc8.md R151). -/
def crcUpdate (crc byte : Byte) : Byte := crcTable (crc ^^^ byte)

/-- CRC8(c0, bytes): the update applied to each byte in turn (42_crc8.md R157). -/
def crc8 (c0 : Byte) (bytes : List Byte) : Byte := bytes.foldl crcUpdate c0

/-- One step of the shift register of 42_crc8.md R153, on bit i of the byte. -/
def crcBitStep (byte : Byte) (c : Byte) (i : Nat) : Byte :=
  let mix := (c.getLsbD 0 ^^ byte.getLsbD i)
  if mix then (c >>> 1) ^^^ 0x8C#8 else c >>> 1

/-- The bitwise form of the update, byte bit 0 first (42_crc8.md R153). -/
def crcBitwise (crc byte : Byte) : Byte := (List.range 8).foldl (crcBitStep byte) crc

/-- OW_CRCLD v (42_crc8.md R155). -/
def owCrcld (v : Byte) (s : State) : State := complete .ok (setCrc v s)

/-- OW_CRCUP v (42_crc8.md R156). -/
def owCrcup (v : Byte) (s : State) : State := complete .ok (setCrc (crcUpdate s.crc v) s)

/-- The meaning of OW_CRCLD. -/
def execOwCrcld (v : Byte) (s : State) : Host.Outcome State Fault Refusal := .next (owCrcld v s)

/-- The meaning of OW_CRCUP. -/
def execOwCrcup (v : Byte) (s : State) : Host.Outcome State Fault Refusal := .next (owCrcup v s)

end Sys2Proof.Machine
end

