-- ==== Sys2Proof/Machine/RomSearch.lean ====
section
/-! DEFINITION. The RomSearch state machine (43_romsearch.md): OW_SRST, and OW_SNEXT with the branch choice, the
step of one address bit, the walk and its end. The search temporaries (10_state.md R40) exist only inside the
one step of OW_SNEXT: they are the record `Walk`. Log entry 13. -/

namespace Sys2Proof.Machine

/-- A walk under way: the state and the temporaries bit_index, byte_index, bit_mask and marker
(10_state.md R40). -/
structure Walk where
  st        : State
  bitIndex  : Nat
  byteIndex : Nat
  bitMask   : Byte
  marker    : Nat
  deriving DecidableEq, Repr

/-- How a step or a walk ends: stopped by a (1,1) pair (43_romsearch.md R182), or gone on. -/
inductive WalkOutcome where
  | aborted (s : State)
  | walking (w : Walk)
  deriving DecidableEq, Repr

/-- OW_SRST (43_romsearch.md R172). -/
def owSrst (s : State) : State := complete .ok (setDone false (setLd 0#7 s))

/-- The branch taken at bit_index k when the pair is not (1,1) (43_romsearch.md R173): the agreed bit, or at a
collision the stored bit below LD, 1 at LD, and 0 beyond (R174). -/
def chooseDir (idBit cmpBit stored : Bool) (k ld : Nat) : Bool :=
  if idBit ≠ cmpBit then idBit else if k < ld then stored else k == ld

/-- marker after the step: bit_index where a collision resolved to 0 (43_romsearch.md R174). -/
def nextMarker (idBit cmpBit dir : Bool) (k marker : Nat) : Nat :=
  if idBit = cmpBit ∧ dir = false then k else marker

/-- The bit stored in the buffer at the current position, `(ROM[byte_index] & bit_mask) != 0`
(43_romsearch.md R175). -/
def Walk.storedBit (w : Walk) : Bool := (romByte w.st.rom w.byteIndex &&& w.bitMask) ≠ 0x00#8

/-- The store of `dir` at the current position (43_romsearch.md R180). -/
def storeDir (dir : Bool) (byteIndex : Nat) (bitMask : Byte) (s : State) : State :=
  let byte := romByte s.rom byteIndex
  setRom (romSetByte s.rom byteIndex (if dir then byte ||| bitMask else byte &&& ~~~bitMask)) s

/-- The end of a step: bit_index and bit_mask move on, and a completed byte is folded into CRC
(43_romsearch.md R178, R181). -/
def Walk.advance (w : Walk) (marker : Nat) (s : State) : Walk :=
  let mask := w.bitMask <<< 1
  if mask = 0x00#8 then
    { st := setCrc (crcUpdate s.crc (romByte s.rom w.byteIndex)) s
      bitIndex := w.bitIndex + 1, byteIndex := w.byteIndex + 1, bitMask := 0x01#8, marker := marker }
  else
    { st := s, bitIndex := w.bitIndex + 1, byteIndex := w.byteIndex, bitMask := mask, marker := marker }

/-- One address bit: two read slots, the classification, the store and the write slot
(43_romsearch.md R171, R179). -/
def searchBit (o : Oracle) (w : Walk) : WalkOutcome :=
  let idRead := slotRead o w.st
  let cmpRead := slotRead o idRead.2
  if idRead.1 = true ∧ cmpRead.1 = true then .aborted cmpRead.2
  else
    let dir := chooseDir idRead.1 cmpRead.1 w.storedBit w.bitIndex w.st.ld.toNat
    let marker := nextMarker idRead.1 cmpRead.1 dir w.bitIndex w.marker
    .walking (w.advance marker (slotWrite dir (storeDir dir w.byteIndex w.bitMask cmpRead.2)))

/-- At most `n` address bits, stopping at an abort (43_romsearch.md R178). -/
def searchBits (o : Oracle) : Nat → Walk → WalkOutcome
  | 0, w => .walking w
  | n + 1, w =>
    match searchBit o w with
    | .aborted s => .aborted s
    | .walking w' => searchBits o n w'

/-- The start of the walk (43_romsearch.md R176). -/
def startWalk (s : State) : Walk where
  st := setCrc 0x00#8 s
  bitIndex := 1
  byteIndex := 0
  bitMask := 0x01#8
  marker := 0

/-- The end of a pass that got past its reset slot: the abort (43_romsearch.md R182), the CRC check (R183) or
success (R184). -/
def finishPass : WalkOutcome → State
  | .aborted s => complete .notFound (setLd 0#7 s)
  | .walking w =>
    if w.st.crc ≠ 0x00#8 then complete .notFound (setLd 0#7 w.st)
    else complete .found (setDone (doneOf w.marker) (setLd (BitVec.ofNat 7 w.marker) w.st))

/-- The SearchROM command byte, a fixed wire constant (43_romsearch.md R177). -/
def searchRom : Byte := 0xF0#8

/-- The pass from the SearchROM byte on (43_romsearch.md R175 to R184). -/
def searchPass (o : Oracle) (s : State) : State :=
  finishPass (searchBits o 64 (startWalk (writeByteSlots searchRom s)))

/-- OW_SNEXT over a BUS `o` (43_romsearch.md R175): the done path performs no slot (R185), and a reset slot that
is not PRESENCE ends the pass (R186). -/
def owSnext (o : Oracle) (s : State) : State :=
  if s.done = true then complete .notFound s
  else
    let slot := slotReset o s
    if resetOutcome slot.1.1 slot.1.2 ≠ .presence then complete .notFound slot.2
    else searchPass o slot.2

/-- The meaning of OW_SRST. -/
def execOwSrst (s : State) : Host.Outcome State Fault Refusal := .next (owSrst s)

/-- The meaning of OW_SNEXT. -/
def execOwSnext (s : State) : Host.Outcome State Fault Refusal := .next (owSnext (busOracle s) s)

end Sys2Proof.Machine
end

