-- ==== Sys2Proof/Machine/Dispatch.lean ====
section
/-! DEFINITION. One arm per command of the opcode table (30_encoding.md R85), each a direct call of its meaning. -/

namespace Sys2Proof.Machine

def exec (i : Instr) (s : State) : Host.Outcome State Fault Refusal :=
  match i with
  | .owReset => Sys2Proof.Machine.execOwReset s
  | .owWbit b => Sys2Proof.Machine.execOwWbit b s
  | .owRbit => Sys2Proof.Machine.execOwRbit s
  | .owWbyte v => Sys2Proof.Machine.execOwWbyte v s
  | .owRbyte => Sys2Proof.Machine.execOwRbyte s
  | .owCrcld v => Sys2Proof.Machine.execOwCrcld v s
  | .owCrcup v => Sys2Proof.Machine.execOwCrcup v s
  | .owSrst => Sys2Proof.Machine.execOwSrst s
  | .owSnext => Sys2Proof.Machine.execOwSnext s

end Sys2Proof.Machine
end

