-- ==== Sys2Proof/Machine/Agents.lean ====
section
/-! DEFINITION. What each agent does when it moves (00_scope.md R5): the ENGINE's completion step, the HOST's
register accesses and polls, and the platform's hardware reset; and which of them moves next. -/

namespace Sys2Proof.Machine

/-- The ENGINE's completion step in phase RUNNING: decode LCMD and run the command's rule (20_memory.md R70); an
illegal word completes ILLEGAL before any other check (60_exceptions.md R211, R217). -/
def engineStep (s : State) : Host.Outcome State Fault Refusal :=
  match decode s.lcmd with
  | .command i => exec i s
  | .illegal _ => .next (completeIllegal s)

/-- A HOST write of CMD while BUSY = 0 (20_memory.md R64): CMD, the latch and the phase, nothing else. -/
def writeCmd (c : Byte) (s : State) : State :=
  { s with cmd := c, lcmd := commandWord s.arg c, phase := .running }

/-- A HOST write of ARG while BUSY = 0 (20_memory.md R65). -/
def writeArg (v : Byte) (s : State) : State := { s with arg := v }

/-- A one-byte HOST write at an offset of the window while BUSY = 0: writes to read-only and reserved offsets
are ignored (20_memory.md R64, R65). -/
def regWrite (off : Nat) (v : Byte) (s : State) : State :=
  if off = 0x0 then writeCmd v s else if off = 0x1 then writeArg v s else s

/-- What a HOST read of an offset gets back: the register while BUSY = 0 (20_memory.md R67); while BUSY = 1 a
free value, but for STATUS.BUSY, which is 1 exactly (R66). -/
def readValue (off : Nat) (s : State) : Byte :=
  if s.busy = false then regRead s off
  else if off = 0x2 then setBit (Config.busyRead s.inst s.draws) 0 true
  else Config.busyRead s.inst s.draws

/-- A one-byte HOST read delivers its value to the HOST and changes nothing of OWCORE's (20_memory.md R66, R67);
a read while BUSY = 1 draws a free value. -/
def deliverRead (off : Nat) (s : State) : State :=
  { s with
    reads := s.reads ++ [readValue off s]
    draws := if s.busy then s.draws + 1 else s.draws }

/-- One HOST register read, into variable `x`. An offset outside 0x0 to 0xF is not an OWCORE access, and a wider
access is refused (20_memory.md R62). -/
def hostRead (width : Width) (off x : Nat) (s : State) : Host.Outcome State Fault Refusal :=
  if 0x10 ≤ off then .fault .outsideWindow
  else if width = .wider then .refused .wideAccess
  else .next (deliverRead off { s with host := s.host.receive x (readValue off s) })

/-- One HOST register write: the checks of `hostRead`, and any write while BUSY = 1 is refused
(20_memory.md R66). -/
def hostWrite (width : Width) (off : Nat) (v : Byte) (s : State) : Host.Outcome State Fault Refusal :=
  if 0x10 ≤ off then .fault .outsideWindow
  else if width = .wider then .refused .wideAccess
  else if s.busy then .refused .writeWhileBusy
  else .next (regWrite off v { s with host := s.host.goOn })

/-- One poll of OW_WAIT (30_encoding.md R91): read STATUS, and leave the loop if its bit 0 reads 0. The `s` of the
expansion is a scratch name that no program can read: a poll sets no host variable (DESIGN CHOICE, log entry 27). -/
def hostPoll (s : State) : State :=
  deliverRead 0x2 { s with host := if (readValue 0x2 s).getLsbD 0 then s.host else s.host.goOn }

/-- The HOST's turn: the next operation of its program (00_scope.md R13; 20_memory.md R72). A HOST that has ended
does nothing, and a computation or a jump of its own touches nothing of OWCORE's. -/
def hostTurn (s : State) : Host.Outcome State Fault Refusal :=
  match s.host.move with
  | .ended => .next s
  | .read width off x => hostRead width off x s
  | .write width off v => hostWrite width off v s
  | .poll => .next (hostPoll s)
  | .own h => .next { s with host := h }

/-- The ENGINE's turn: it completes the running command; when IDLE it waits for a CMD write
(70_reset_and_hazards.md R243). -/
def engineTurn (s : State) : Host.Outcome State Fault Refusal :=
  if s.busy then engineStep s else .next s

/-- The events the running command's slots append when it runs to its end. -/
def commandEvents (s : State) : List BusEvent :=
  match engineStep s with
  | .next t => t.trace.drop s.trace.length
  | .fault _ => []
  | .refused _ => []

/-- The events a hardware reset appends (70_reset_and_hazards.md R242): while RUNNING, those of the command's
first `slots` slots, and ABORT if they are fewer than the command's; while IDLE, none. -/
def resetEvents (slots : Nat) (s : State) : List BusEvent :=
  if s.busy then
    (commandEvents s).take slots ++ (if slots < (commandEvents s).length then [.abort] else [])
  else []

/-- Hardware reset (70_reset_and_hazards.md R240 to R242): every piece of state takes its reset value, the bus
trace is not cleared, and the HOST, the schedule and the other fields of the model's own stand as they are. -/
def hardwareReset (slots : Nat) (s : State) : State :=
  { State.reset with
    trace := s.trace ++ resetEvents slots s
    inst := s.inst
    host := s.host
    schedule := s.schedule
    reads := s.reads
    draws := s.draws }

/-- One turn of the schedule. -/
def takeTurn (t : Turn) (s : State) : Host.Outcome State Fault Refusal :=
  match t with
  | .engine => engineTurn s
  | .host => hostTurn s
  | .hardwareReset slots => .next (hardwareReset slots s)

/-- The next move: the schedule's next turn; with no turn scheduled, the ENGINE if a command runs
(70_reset_and_hazards.md R258), else the HOST. Log entry 10. -/
def moveNext (s : State) : Host.Outcome State Fault Refusal :=
  match s.schedule with
  | [] => if s.busy then engineTurn s else hostTurn s
  | t :: rest => takeTurn t { s with schedule := rest }

/-- The state with the command word `w` written by the HOST and about to run: CMD, ARG and the latch hold it,
the phase is RUNNING, and no turn is scheduled before the ENGINE's (20_memory.md R64). Log entry 9. -/
def placeCommand (w : Word) (s : State) : State :=
  { writeCmd (w.extractLsb' 0 8) (writeArg (argField w) s) with schedule := [] }

end Sys2Proof.Machine
end

