-- ==== Sys2Proof/Machine/Step.lean ====
section
/-! DEFINITION. One step of the machine, and an instruction placed where the next step runs it. -/

namespace Sys2Proof.Machine

/-- One step: the next agent's move (00_scope.md R5). -/
def step (s : State) : Host.Outcome State Fault Refusal := moveNext s

/-- The state in which the very next step runs the instruction whose bits are `w`: OWCORE fetches nothing
(10_state.md R21), so the word is put where the HOST's CMD write latches it. Log entry 9. -/
def State.withFetchWord (s : State) (nbits w : Nat) : State := placeCommand (BitVec.ofNat 16 (w % 2 ^ nbits)) s

end Sys2Proof.Machine
end

