-- ==== Sys2Proof/Machine/Instances.lean ====
section
/-! DEFINITION. Several OWCORE instances, one per logical bus (20_memory.md R77, 60_exceptions.md R224): each has
its own window, registers, session and bus, and a step is a step of one of them. -/

namespace Sys2Proof.Machine

/-- `n` instances after reset, each with its own number and so its own window and BUS. -/
def instancesReset (n : Nat) : List State := (List.range n).map fun k => { State.reset with inst := k }

/-- All the instances of an integration after reset (20_memory.md R77). -/
def allReset : List State := instancesReset Config.nInst

/-- A step of instance `k`; the others stand as they are. -/
def stepInstance (k : Nat) (all : List State) : Host.Outcome (List State) Fault Refusal :=
  match all[k]? with
  | none => .next all
  | some s =>
    match step s with
    | .next t => .next (all.set k t)
    | .fault r => .fault r
    | .refused r => .refused r

end Sys2Proof.Machine
end

