-- ==== Sys2Proof/Machine/Timing.lean ====
section
/-! DEFINITION. The durations of slots and commands (70_reset_and_hazards.md R257), in microseconds, over the
timing parameters. The model has no time, and no step reads them (R258). Log entry 14. -/

namespace Sys2Proof.Machine

/-- The length of one slot (70_reset_and_hazards.md R257). A reset slot's idle check is not counted: the source
gives it no length. A slot cut short is counted as 0. -/
def slotMicros (t : Timing) : BusEvent → Nat
  | .rst _ _ => t.tRstl + t.tPds + t.tRstr
  | .w true => t.tW1l + t.tW1h
  | .w false => t.tW0l + t.tW0h
  | .r _ => t.tRl + t.tMsr + t.tRrec
  | .abort => 0

/-- The time from a read slot's falling edge to its sample (70_reset_and_hazards.md R257). -/
def readSampleMicros (t : Timing) : Nat := t.tRl + t.tMsr

/-- The lengths of a sequence of slots, without gaps. -/
def slotsMicros (t : Timing) (events : List BusEvent) : Nat := (events.map (slotMicros t)).sum

/-- The gaps of one command: T_GAP between the eight slots of a byte and none after the last
(41_bytecodec.md R132), and none between the slots of a search walk (92_eei_decisions.md D20). -/
def gapMicros (t : Timing) (i : Instr) (events : List BusEvent) : Nat :=
  match i with
  | .owReset => 0
  | .owWbit _ => 0
  | .owRbit => 0
  | .owWbyte _ => 7 * t.tGap
  | .owRbyte => 7 * t.tGap
  | .owCrcld _ => 0
  | .owCrcup _ => 0
  | .owSrst => 0
  | .owSnext => if 1 < events.length then 7 * t.tGap else 0

/-- The bus time of a command that performed the slots `events` (70_reset_and_hazards.md R257). -/
def commandMicros (t : Timing) (i : Instr) (events : List BusEvent) : Nat :=
  slotsMicros t events + gapMicros t i events

end Sys2Proof.Machine
end

