-- ==== Sys2Proof/RefBus.lean ====
section
/-! DEFINITION. The reference bus of 95_test_vectors.md §1, as far as a search pass meets it. It is no part of
OWCORE and no rule depends on it (40_buslink.md R104): only claims that say so are about it. Log entry 20. -/

namespace Sys2Proof.RefBus

open Sys2Proof.Machine

/-- What a device is doing. -/
inductive Mode where
  /-- It drives nothing until the next reset slot. -/
  | silent
  /-- Command mode: the bits collected so far, first one first. -/
  | command (bits : List Bool)
  /-- Search mode at bit position k, before the first read slot. -/
  | searchId (k : Nat)
  /-- Search mode at k, before the second read slot. -/
  | searchCmp (k : Nat)
  /-- Search mode at k, before the write slot. -/
  | searchWrite (k : Nat)
  deriving DecidableEq, Repr

/-- How one slot changes a device with the RomId `id`. A command other than SearchROM leaves it silent here;
ReadROM and MatchROM are left out. -/
def Mode.next (id : Vector Byte 8) : Mode → BusEvent → Mode
  | _, .rst _ _ => .command []
  | .command bits, .w b =>
    if bits.length < 7 then .command (bits ++ [b])
    else if bits ++ [b] = wireBits searchRom then .searchId 1
    else .silent
  | .searchId k, .r _ => .searchCmp k
  | .searchCmp k, .r _ => .searchWrite k
  | .searchWrite k, .w b => if b = romBit id k ∧ k < 64 then .searchId (k + 1) else .silent
  | _, _ => .silent

/-- What a device drives in a read slot: true for released. -/
def Mode.drives (id : Vector Byte 8) : Mode → Bool
  | .searchId k => romBit id k
  | .searchCmp k => !romBit id k
  | _ => true

/-- What a device is doing after the slots of a trace. -/
def modeAfter (id : Vector Byte 8) (trace : List BusEvent) : Mode := trace.foldl (Mode.next id) .silent

/-- The bus with a set of devices: the line is the AND of what they drive (95_test_vectors.md §1). -/
def searchBus (devices : List (Vector Byte 8)) : Oracle := fun trace kind =>
  match kind with
  | .presence => devices.isEmpty
  | .idle => true
  | .read => devices.all fun id => (modeAfter id trace).drives id

/-- A line stuck low: every sample is low (95_test_vectors.md §1). -/
def stuckLow : Oracle := fun _ _ => false

/-- A RomId's check byte is right: CRC8 over its eight bytes is 0 (10_state.md R35, 42_crc8.md R158). -/
def validId (id : Vector Byte 8) : Bool := crc8 0x00#8 id.toList == 0x00#8

/-- The bit string of a RomId, bit 1 to bit 64 (43_romsearch.md R190). -/
def bitString (id : Vector Byte 8) : List Bool := (List.range 64).map fun i => romBit id (i + 1)

/-- The order of 43_romsearch.md R190: by bit string, compared from bit 1 with 0 < 1. -/
def before (a b : Vector Byte 8) : Bool := decide (bitString a < bitString b)

/-- The RomIds that `n` passes return, in order, with the state after them: a pass that does not complete FOUND
returns none and ends the discovery (90_conflicts.md C6). -/
def discover (o : Oracle) : Nat → State → List (Vector Byte 8) × State
  | 0, s => ([], s)
  | n + 1, s =>
    let t := owSnext o s
    if t.result = .found then
      let rest := discover o n t
      (t.rom :: rest.1, rest.2)
    else ([], t)

end Sys2Proof.RefBus
end

