-- ==== Sys2Proof/Machine/HostProgram.lean ====
section
/-! DEFINITION. The HOST's side of the interface: the address window (20_memory.md R69), the expansions of the
pseudo-instructions (30_encoding.md R91), and the launch of a run (00_scope.md R13, R14). -/

namespace Sys2Proof.Machine

/-- The offset of an address in the register window whose base is `base`, if it lies in it (20_memory.md R60,
R69). -/
def windowOffset (base addr : Nat) : Option Nat :=
  if base ≤ addr ∧ addr < base + 16 then some (addr - base) else none

/-- The offset of an address in the window of a state's own instance (20_memory.md R69, R77). -/
def instanceOffset (s : State) (addr : Nat) : Option Nat := windowOffset (Config.owBase s.inst) addr

/-- A byte as an expression. -/
def HostExpr.byte (v : Byte) : HostExpr := .const (v.setWidth 64)

/-- `RegWrite(off, v)`, one byte wide. -/
def regWriteOp (off : Byte) (v : HostExpr) : HostOp := .write .byte (.byte off) v

/-- `x <- RegRead(off)`, one byte wide. -/
def regReadOp (off : HostExpr) (x : Nat) : HostOp := .read .byte off x

/-- `goto` the operation `by_` places on. -/
def gotoOp (by_ : Int) : HostOp := .branch (.const 1) by_

/-- `if c` then the one, else the other. -/
def ifThenElse (c : HostExpr) (yes no : List HostOp) : List HostOp :=
  .branch c (no.length + 2) :: (no ++ gotoOp (yes.length + 1) :: yes)

/-- `for x in lo..hi`, both ends taken. -/
def forLoop (x : Nat) (lo hi : HostExpr) (body : List HostOp) : List HostOp :=
  .set x lo :: .branch (.bin .lt hi (.var x)) (body.length + 3) ::
    (body ++ [.set x (.bin .add (.var x) (.const 1)), gotoOp (-(body.length + 2))])

/-- `OW_WAIT` (30_encoding.md R91). -/
def owWait : List HostOp := [.wait]

/-- A command line of a program, with any expression as its operand: the ARG write if the mnemonic takes an operand,
the CMD write, then OW_WAIT (30_encoding.md R91). -/
def commandLine (m : Mnemonic) (operand : HostExpr) : List HostOp :=
  match m.form with
  | .none => [regWriteOp 0x0#8 (.byte m.commandByte), .wait]
  | .bit => [regWriteOp 0x1#8 operand, regWriteOp 0x0#8 (.byte m.commandByte), .wait]
  | .imm8 => [regWriteOp 0x1#8 operand, regWriteOp 0x0#8 (.byte m.commandByte), .wait]

/-- A command line with its operand written out. -/
def commandOps (i : Instr) : List HostOp := commandLine i.mnemonic (.byte ((operandByte i).getD 0x00#8))

/-- `OW_CRCCLR` (30_encoding.md R91). -/
def owCrcclr : List HostOp := commandOps (.owCrcld 0x00#8)

/-- `OW_WBYTES v0, v1, ...` (30_encoding.md R91). -/
def owWbytes (vs : List HostExpr) : List HostOp := vs.flatMap (commandLine .owWbyte)

/-- `OW_RSLT r`: OW_WAIT, then `r <- RegRead(0x2)[3:1]` (30_encoding.md R91), with no variable but r (log entry 27).
-/
def owRslt (r : Nat) : List HostOp :=
  [.wait, regReadOp (.const 0x2) r, .set r (.bin .and (.bin .shr (.var r) (.const 1)) (.const 7))]

/-- The launch of a run (00_scope.md R13, R14): from any state, a HOST program with its memory, the turns, and the
empty bus trace. The BUS is the one of the state's instance. -/
def launch (s : State) (program : List HostOp) (mem : List (Nat × HostWord)) (turns : List Turn) : State :=
  { s with host := HostState.start program mem, schedule := turns, reads := [], trace := [] }

/-- The normal launch, from the reset state of an instance (00_scope.md R13). -/
def launchFromReset (inst : Nat) (program : List HostOp) (turns : List Turn) : State :=
  launch { State.reset with inst := inst } program [] turns

/-- Both conditions of the end of a run: the HOST program has executed its last access, and the ENGINE is IDLE
(00_scope.md R13). -/
def State.RunEnded (s : State) : Prop := s.host.Finished ∧ s.phase = .idle

/-- The case of `RunEnded` that can be computed: the HOST is past its program's last operation. -/
def State.ended (s : State) : Bool := s.host.move == .ended && !s.busy

/-- The run from `s` ends in `t` after `k` steps: there, and at no point before, both conditions hold
(00_scope.md R13). A run whose step stops has no end. -/
def RunEndsAt (s t : State) (k : Nat) : Prop :=
  Host.Core.run Sys2Proof.core k s = .next t ∧ t.RunEnded ∧
    ∀ j u, j < k → Host.Core.run Sys2Proof.core j s = .next u → ¬ u.RunEnded

/-- The final observation of a run (00_scope.md R13): the sixteen registers and the bus trace. -/
structure Observation where
  registers : List Byte
  trace     : List BusEvent
  deriving DecidableEq, Repr

/-- The observation of a state with the ENGINE IDLE (00_scope.md R13). -/
def observe (s : State) : Observation where
  registers := (List.range 16).map (regRead s)
  trace := s.trace

end Sys2Proof.Machine
end

