-- ==== Sys2Proof/Safety.lean ====
section
/-! DEFINITION. What every reachable state satisfies and what counts as a safe step, in the terms claims use. -/

namespace Sys2Proof

open Sys2Proof.Machine

/-- The invariant of an OWCORE state. -/
structure Inv (s : State) : Prop where
  /-- LD takes only the values 0 to 64 (10_state.md R32). -/
  ldRange : s.ld.toNat ≤ 64
  /-- Between steps the line is released (10_state.md R42, 40_buslink.md R103). -/
  released : s.dqDrive = false
  /-- While a command runs, the latch is what ARG and CMD hold: no write can have changed them
  (20_memory.md R64, R66). -/
  latched : s.phase = .running → s.lcmd = commandWord s.arg s.cmd
  /-- The buffer is CRC-valid whenever RESULT = FOUND (10_state.md R35). -/
  foundValid : s.result = .found → crc8 0x00#8 s.rom.toList = 0x00#8
  /-- RESULT = FOUND comes with CRC = 0x00 and with DONE exactly when LD = 0 (43_romsearch.md R184). -/
  foundSession : s.result = .found → s.crc = 0x00#8 ∧ s.done = decide (s.ld = 0#7)
  /-- A finished session has LD = 0 (43_romsearch.md R184). -/
  doneLd : s.done = true → s.ld = 0#7
  /-- RESULT = NONE: no command has completed since reset (10_state.md R26), so every result register still has
  its reset value (70_reset_and_hazards.md R240). -/
  noneYet : s.result = .none →
    s.data = 0x00#8 ∧ s.crc = 0x00#8 ∧ s.ld = 0#7 ∧ s.done = false ∧ s.rom = State.zeroRom
  /-- The HOST's variables and memory are in canonical form (log entry 26). -/
  hostCells : s.host.wf

/-- Every piece of state the spec gives a reset value has it (70_reset_and_hazards.md R240). LCMD, to which the
spec gives no value, and the bus trace, which a reset does not clear, are left out. -/
structure IsResetState (s : State) : Prop where
  cmd : s.cmd = 0x00#8
  arg : s.arg = 0x00#8
  busy : s.phase = .idle
  result : s.result = .none
  done : s.done = false
  data : s.data = 0x00#8
  crc : s.crc = 0x00#8
  ld : s.ld = 0#7
  rom : ∀ j, j < 8 → romByte s.rom j = 0x00#8
  released : s.dqDrive = false
  status : statusByte s = 0x00#8

/-- The HOST moves next, and `turns` is the schedule after its move: its turn is scheduled, or no turn is and the
ENGINE is IDLE. -/
def HostMoves (s : State) (turns : List Turn) : Prop :=
  s.schedule = .host :: turns ∨ (s.schedule = [] ∧ turns = [] ∧ s.phase = .idle)

/-- A command runs and the ENGINE moves next, and `turns` is the schedule after its move: its turn is scheduled, or
no turn is. -/
def EngineMoves (s : State) (turns : List Turn) : Prop :=
  s.phase = .running ∧ (s.schedule = .engine :: turns ∨ (s.schedule = [] ∧ turns = []))

/-- A step that is neither a host-duty violation (60_exceptions.md R213) nor an access outside the window
(20_memory.md R62): it answers a next state. -/
def SafeStep (s : State) : Prop := ∃ t, step s = .next t

/-- A HOST that keeps its duty at its next operation: a one-byte access inside the window, and no write while
BUSY = 1 (70_reset_and_hazards.md R249). -/
def HostDuty (s : State) : Prop :=
  match s.host.move with
  | .ended => True
  | .read width off _ => width = .byte ∧ off < 16
  | .write width off _ => width = .byte ∧ off < 16 ∧ s.busy = false
  | .poll => True
  | .own _ => True

end Sys2Proof
end

