-- ==== Sys2Proof/SearchSpec.lean ====
section
/-! DEFINITION. A search pass bit by bit, as 43_romsearch.md R173, R174 and R178 to R184 give it: at each address
bit k the two answers, the branch and the trace, with no byte index, mask or running CRC. Claims about OW_SNEXT
are stated in these terms. The state `s` is the one OW_SNEXT starts in, and its reset slot gave PRESENCE. -/

namespace Sys2Proof.SearchSpec

open Sys2Proof.Machine

/-- The branch at bit k for the answers (R173, R174): below LD a collision replays the bit the buffer held when
the pass started, since no earlier step of the pass writes position k. -/
def branch (s : State) (k : Nat) (idBit cmpBit : Bool) : Bool :=
  if idBit ≠ cmpBit then idBit
  else if k < s.ld.toNat then romBit s.rom k
  else decide (k = s.ld.toNat)

/-- The trace after the reset slot and the SearchROM byte (R177). -/
def start (s : State) : List BusEvent :=
  s.trace ++ [.rst false true] ++ (wireBits searchRom).map BusEvent.w

/-- The trace after k completed bits (R179). -/
def traceAfter (o : Oracle) (s : State) : Nat → List BusEvent
  | 0 => start s
  | k + 1 =>
    let before := traceAfter o s k
    let idBit := o before .read
    let cmpBit := o (before ++ [.r idBit]) .read
    before ++ [.r idBit, .r cmpBit, .w (branch s (k + 1) idBit cmpBit)]

/-- id_bit at bit k (R171). -/
def idBit (o : Oracle) (s : State) (k : Nat) : Bool := o (traceAfter o s (k - 1)) .read

/-- cmp_bit at bit k (R171). -/
def cmpBit (o : Oracle) (s : State) (k : Nat) : Bool :=
  o (traceAfter o s (k - 1) ++ [.r (idBit o s k)]) .read

/-- dir at bit k. -/
def dir (o : Oracle) (s : State) (k : Nat) : Bool := branch s k (idBit o s k) (cmpBit o s k)

/-- No device answers at bit k: the pair is (1,1) (R182). -/
def stops (o : Oracle) (s : State) (k : Nat) : Bool := idBit o s k && cmpBit o s k

/-- A collision at bit k that resolves to 0 (R174). -/
def zeroBranch (o : Oracle) (s : State) (k : Nat) : Bool :=
  (idBit o s k == cmpBit o s k) && !dir o s k

/-- marker after k completed bits: the greatest bit index so far with a collision that resolved to 0, or 0
(R174). -/
def marker (o : Oracle) (s : State) : Nat → Nat
  | 0 => 0
  | k + 1 => if zeroBranch o s (k + 1) then k + 1 else marker o s k

/-- `n` is how many bits the pass completes: it stops before the first (1,1) pair, or walks all 64 (R178,
R182). -/
structure Completes (o : Oracle) (s : State) (n : Nat) : Prop where
  atMost : n ≤ 64
  goesOn : ∀ k, 1 ≤ k → k ≤ n → stops o s k = false
  stopped : n < 64 → stops o s (n + 1) = true

end Sys2Proof.SearchSpec
end

