-- ==== Sys2Proof/Certificates/Slice0/Obligations.lean ====
section
/-! DEFINITION. The statements about OWCORE, for the provers. -/

open Sys2Proof Sys2Proof.Machine

/-! ### Encoding -/

/-- R80, R86, R90: decoding the assembler's word gives the command back, and a word decodes to a command only if it
is that word, or differs from it in the ARG byte of a command without an operand. -/
def Obligations.DecodeEncodeAgree : Prop :=
  (∀ i : Instr, decode (encode i) = .command i) ∧
    ∀ (w : Word) (i : Instr), decode w = .command i →
      w = encode i ∨ (operandByte i = none ∧ w &&& 0x00FF#16 = encode i)

/-- R85: a word encodes a row's command exactly when the word AND the row's mask is the row's match. -/
def Obligations.DecodeMatchesTableRow : Prop :=
  ∀ (w : Word) (m : Mnemonic),
    (∃ i : Instr, i.mnemonic = m ∧ decode w = .command i) ↔ w &&& m.tableMask = m.tableMatch

/-- R86, R88: the illegal words are exactly those with OPC = 0x0, OPC from 0xA to 0xF, RSV not 0, or OPC = 0x2 with
bits 15 to 9 not 0. -/
def Obligations.IllegalWordsAreExactlyThese : Prop :=
  ∀ w : Word, (∃ why, decode w = .illegal why) ↔
    (opcField w = 0x0#4 ∨ 0xA ≤ (opcField w).toNat ∨ rsvField w ≠ 0#4 ∨
      (opcField w = 0x2#4 ∧ wbitReserved w ≠ 0#7))

/-- R85, R90 and the vectors V-E1 to V-E17: words written out from the encodings decode to what they stand for. -/
def Obligations.SpecWordsDecode : Prop :=
  decode 0xAB01#16 = .command .owReset ∧ decode 0x0002#16 = .command (.owWbit false) ∧
    decode 0x0102#16 = .command (.owWbit true) ∧ decode 0x0202#16 = .illegal .bitOperandRange ∧
    decode 0x0003#16 = .command .owRbit ∧ decode 0x5A04#16 = .command (.owWbyte 0x5A#8) ∧
    decode 0x0005#16 = .command .owRbyte ∧ decode 0x0006#16 = .command (.owCrcld 0x00#8) ∧
    decode 0x2807#16 = .command (.owCrcup 0x28#8) ∧ decode 0x0008#16 = .command .owSrst ∧
    decode 0x0009#16 = .command .owSnext ∧ decode 0x0000#16 = .illegal .opcode ∧
    decode 0x000A#16 = .illegal .opcode ∧ decode 0x00F9#16 = .illegal .reservedBits

/-- R90: a well-formed line assembles to a command with its mnemonic and its operand, and no other line assembles.
-/
def Obligations.AssemblerTakesWellFormedLines : Prop :=
  ∀ l : AsmLine,
    (l.wellFormed = true → ∃ i, l.assemble = some i ∧ i.mnemonic = l.mnemonic ∧
      operandByte i = l.operand.map (BitVec.ofNat 8)) ∧
    (l.wellFormed = false → l.assemble = none)

/-! ### The step -/

/-- R70, R258: when the ENGINE moves while a command runs, the step is exec of the decoded command, on the state
with the ENGINE's turn taken off the schedule. -/
def Obligations.StepRunsDecodedCommand : Prop :=
  ∀ (s : State) (turns : List Turn) (i : Instr), EngineMoves s turns → decode s.lcmd = .command i →
    step s = exec i { s with schedule := turns }

/-- R211: an illegal word completes ILLEGAL, code 7, and nothing else happens; CMD and ARG still hold the word. -/
def Obligations.IllegalCommandCompletesIllegal : Prop :=
  resultCode .illegal = 7#3 ∧
  ∀ (s : State) (turns : List Turn) (why : IllegalWord), EngineMoves s turns →
    decode s.lcmd = .illegal why →
    let t : State := { s with schedule := turns, result := .illegal, phase := .idle }
    step s = .next t ∧ (Inv s → regRead t 0x0 = s.lcmd.extractLsb' 0 8 ∧ regRead t 0x1 = argField s.lcmd)

/-! ### The bit-timing engine -/

/-- R107, R112: OW_RESET performs one reset slot and classifies it, the idle check before the presence sample;
nothing else is written. -/
def Obligations.OwResetClassifiesTheSlot : Prop :=
  (∀ w : Word, w &&& 0x00FF#16 = 0x0001#16 → decode w = .command .owReset) ∧
  ∀ s : State,
    let p := Config.busSample s.inst s.trace .presence
    let idle := Config.busSample s.inst s.trace .idle
    exec .owReset s = .next { s with
      result := if idle = false then .busError else if p = false then .presence else .noPresence
      phase := .idle
      dqDrive := false
      trace := s.trace ++ [.rst p idle] }

/-- R109: OW_WBIT performs one write slot of its bit and completes OK; nothing else is written. A word with OPC =
0x2, RSV = 0 and bits 15 to 9 not 0 is illegal and completes ILLEGAL with no slot. -/
def Obligations.OwWbitWritesOneBit : Prop :=
  (decode 0x0002#16 = .command (.owWbit false) ∧ decode 0x0102#16 = .command (.owWbit true) ∧
    ∀ w : Word, opcField w = 0x2#4 → rsvField w = 0#4 → wbitReserved w ≠ 0#7 →
      decode w = .illegal .bitOperandRange ∧
        ∀ s : State, s.lcmd = w → engineStep s = .next { s with result := .illegal, phase := .idle }) ∧
  ∀ (b : Bool) (s : State),
    exec (.owWbit b) s = .next { s with
      result := .ok, phase := .idle, dqDrive := false, trace := s.trace ++ [.w b] }

/-- R111: OW_RBIT performs one read slot, puts the sample in DATA[0] with DATA[7:1] = 0, and completes OK; nothing
else is written. -/
def Obligations.OwRbitReadsOneBit : Prop :=
  (∀ w : Word, w &&& 0x00FF#16 = 0x0003#16 → decode w = .command .owRbit) ∧
  ∀ s : State,
    let v := Config.busSample s.inst s.trace .read
    exec .owRbit s = .next { s with
      data := if v then 0x01#8 else 0x00#8
      result := .ok, phase := .idle, dqDrive := false, trace := s.trace ++ [.r v] }

/-! ### The byte serializer and deserializer -/

/-- R131, R132, R135: OW_WBYTE performs eight write slots, bit 0 first, with seven gaps between them, and completes
OK; nothing else is written. -/
def Obligations.OwWbyteWritesEightBits : Prop :=
  (∀ (t : Timing) (v : Byte) (es : List BusEvent), gapMicros t (.owWbyte v) es = 7 * t.tGap) ∧
  (∀ w : Word, w &&& 0x00FF#16 = 0x0004#16 → decode w = .command (.owWbyte (w.extractLsb' 8 8))) ∧
  ∀ (v : Byte) (s : State),
    exec (.owWbyte v) s = .next { s with
      result := .ok, phase := .idle, dqDrive := false
      trace := s.trace ++ [.w (v.getLsbD 0), .w (v.getLsbD 1), .w (v.getLsbD 2), .w (v.getLsbD 3),
        .w (v.getLsbD 4), .w (v.getLsbD 5), .w (v.getLsbD 6), .w (v.getLsbD 7)] }

/-- R133, R132, R135: OW_RBYTE performs eight read slots with seven gaps between them; the sample of slot i,
answered to the trace up to it, is bit i of DATA; it completes OK and nothing else is written. -/
def Obligations.OwRbyteReadsEightBits : Prop :=
  (∀ (t : Timing) (es : List BusEvent), gapMicros t .owRbyte es = 7 * t.tGap) ∧
  (∀ w : Word, w &&& 0x00FF#16 = 0x0005#16 → decode w = .command .owRbyte) ∧
  ∀ s : State, ∃ (vs : List Bool) (d : Byte), vs.length = 8 ∧
    (∀ (i : Nat) (h : i < vs.length),
      vs[i] = Config.busSample s.inst (s.trace ++ (vs.take i).map BusEvent.r) .read ∧ d.getLsbD i = vs[i]) ∧
    exec .owRbyte s = .next { s with
      data := d, result := .ok, phase := .idle, dqDrive := false
      trace := s.trace ++ vs.map BusEvent.r }

/-- R136, an inference of the spec: a byte write is eight bit writes; a byte read performs the slots of eight bit
reads, and bit i of its DATA is DATA[0] after the (i + 1)-th of them. -/
def Obligations.ByteCommandsAreEightBitCommands : Prop :=
  (∀ (v : Byte) (s : State), owWbyte v s =
    owWbit (v.getLsbD 7) (owWbit (v.getLsbD 6) (owWbit (v.getLsbD 5) (owWbit (v.getLsbD 4)
      (owWbit (v.getLsbD 3) (owWbit (v.getLsbD 2) (owWbit (v.getLsbD 1) (owWbit (v.getLsbD 0) s)))))))) ∧
  ∀ (o : Oracle) (s : State), (owRbyte o s).trace = ((owRbit o)^[8] s).trace ∧
    ∀ i, i < 8 → (owRbyte o s).data.getLsbD i = ((owRbit o)^[i + 1] s).data.getLsbD 0

/-! ### The CRC8 accumulator -/

/-- R155: OW_CRCLD loads its byte into CRC and completes OK, with no slot; nothing else is written. -/
def Obligations.OwCrcldLoadsCrc : Prop :=
  (∀ w : Word, w &&& 0x00FF#16 = 0x0006#16 → decode w = .command (.owCrcld (w.extractLsb' 8 8))) ∧
  ∀ (v : Byte) (s : State), exec (.owCrcld v) s = .next { s with crc := v, result := .ok, phase := .idle }

/-- R151, R156: OW_CRCUP makes CRC the table entry at CRC exclusive-or its byte and completes OK, with no slot;
nothing else is written. -/
def Obligations.OwCrcupFoldsOneByte : Prop :=
  (∀ w : Word, w &&& 0x00FF#16 = 0x0007#16 → decode w = .command (.owCrcup (w.extractLsb' 8 8))) ∧
  ∀ (v : Byte) (s : State), exec (.owCrcup v) s =
    .next { s with crc := crcTable (s.crc ^^^ v), result := .ok, phase := .idle }

/-- R154, an inference of the spec: T[0x00] = 0x00, T is a bijection on bytes, T is linear over exclusive-or, and
one update gives 0x00 exactly when the byte equals the running CRC. -/
def Obligations.CrcTableIsLinearBijection : Prop :=
  crcTable 0x00#8 = 0x00#8 ∧ Function.Bijective crcTable ∧
    (∀ a b : Byte, crcTable (a ^^^ b) = crcTable a ^^^ crcTable b) ∧
    ∀ crc byte : Byte, crcUpdate crc byte = 0x00#8 ↔ byte = crc

/-- R153, an inference of the spec: the table's update equals the bitwise shift-register loop on every accumulator
and byte. -/
def Obligations.CrcTableIsTheShiftRegister : Prop :=
  ∀ crc byte : Byte, crcTable (crc ^^^ byte) = crcBitwise crc byte

/-- R158, an inference of the spec: a byte sequence followed by its CRC8 has CRC8 0x00, whatever the start value.
-/
def Obligations.CrcResidueIsZero : Prop :=
  ∀ (c0 : Byte) (p : List Byte), crc8 c0 (p ++ [crc8 c0 p]) = 0x00#8

/-- R159, an inference of the spec: flipping any one bit of a sequence with CRC8 0x00 makes its CRC8 nonzero. -/
def Obligations.CrcDetectsSingleBitFlip : Prop :=
  ∀ (x : List Byte), crc8 0x00#8 x = 0x00#8 → ∀ (j : Nat) (h : j < x.length) (i : Nat), i < 8 →
    crc8 0x00#8 (x.set j (x[j] ^^^ (0x01#8 <<< i))) ≠ 0x00#8

/-- R183, R154, an inference of the spec: CRC8 over the eight bytes of the buffer is 0x00 exactly when byte 7 is
the CRC8 of bytes 0 to 6. -/
def Obligations.BufferIsValidExactlyByItsCheckByte : Prop :=
  ∀ rom : Vector Byte 8, crc8 0x00#8 rom.toList = 0x00#8 ↔ rom[7] = crc8 0x00#8 (rom.toList.take 7)

/-! ### The search -/

/-- R172: OW_SRST makes the session (0, 0) and completes OK, with no slot; nothing else is written. -/
def Obligations.OwSrstClearsSession : Prop :=
  (∀ w : Word, w &&& 0x00FF#16 = 0x0008#16 → decode w = .command .owSrst) ∧
  ∀ s : State, exec .owSrst s = .next { s with ld := 0#7, done := false, result := .ok, phase := .idle }

/-- R185: with DONE = 1, OW_SNEXT completes NOT_FOUND without any slot and writes nothing else; DONE stays 1 until
OW_SRST or hardware reset. -/
def Obligations.OwSnextDonePath : Prop :=
  (∀ s : State, s.done = true → exec .owSnext s = .next { s with result := .notFound, phase := .idle }) ∧
  ∀ s t : State, s.done = true → step s = .next t → t.done = true ∨
    (∃ slots turns, s.schedule = .hardwareReset slots :: turns) ∨
    (s.phase = .running ∧ decode s.lcmd = .command .owSrst)

/-- R186: where the reset slot is not PRESENCE, OW_SNEXT completes NOT_FOUND right after it, with LD, DONE, CRC,
ROM and everything else unchanged. OW_SNEXT is `owSnext` over the BUS of the instance. -/
def Obligations.OwSnextResetFailurePath : Prop :=
  (∀ s : State, exec .owSnext s = .next (owSnext (Config.busSample s.inst) s)) ∧
  ∀ (o : Oracle) (s : State), s.done = false → (o s.trace .idle = false ∨ o s.trace .presence = true) →
    owSnext o s = { s with
      result := .notFound, phase := .idle, dqDrive := false
      trace := s.trace ++ [.rst (o s.trace .presence) (o s.trace .idle)] }

/-- R38, R175: OW_SNEXT answers a next state for every state, with FOUND or NOT_FOUND, and leaves CMD, ARG, LCMD,
DATA and the HOST's side unchanged. -/
def Obligations.OwSnextCompletes : Prop :=
  (∀ w : Word, w &&& 0x00FF#16 = 0x0009#16 → decode w = .command .owSnext) ∧
  ∀ s : State, ∃ t : State, exec .owSnext s = .next t ∧ (t.result = .found ∨ t.result = .notFound) ∧
    t = { s with
      result := t.result, phase := .idle, done := t.done, crc := t.crc, ld := t.ld, rom := t.rom
      dqDrive := t.dqDrive, trace := t.trace } ∧
    (t.result = .notFound → t.done = s.done)

/-- R173, R174, R176 to R184, R187: the pass past a reset slot with PRESENCE, bit by bit. It completes n bits; at
each the answers decide the branch, which is stored and written; a (1,1) pair stops it; CRC is the CRC8 of the
bytes completed; FOUND needs 64 bits and CRC = 0x00, and then LD is the last collision resolved to 0 and DONE says
there was none; every other end has NOT_FOUND and LD = 0. -/
def Obligations.OwSnextFollowsBitSpec : Prop :=
  (∀ s : State, exec .owSnext s = .next (owSnext (Config.busSample s.inst) s)) ∧
  ∀ (o : Oracle) (s : State), s.done = false → o s.trace .presence = false → o s.trace .idle = true →
    let t := owSnext o s
    ∃ n, SearchSpec.Completes o s n ∧
      (∀ k, 1 ≤ k → k ≤ 64 →
        romBit t.rom k = if k ≤ n then SearchSpec.dir o s k else romBit s.rom k) ∧
      t.crc = crc8 0x00#8 (t.rom.toList.take (n / 8)) ∧
      t.trace = SearchSpec.traceAfter o s n ++ (if n < 64 then [.r true, .r true] else []) ∧
      (if n = 64 ∧ t.crc = 0x00#8 then
        t.result = .found ∧ t.done = decide (t.ld = 0#7) ∧
          (t.ld ≠ 0#7 → t.ld.toNat ≤ 64 ∧ SearchSpec.zeroBranch o s t.ld.toNat = true) ∧
          ∀ k, t.ld.toNat < k → k ≤ 64 → SearchSpec.zeroBranch o s k = false
      else t.result = .notFound ∧ t.ld = 0#7 ∧ t.done = false) ∧
      t = { s with
        result := t.result, phase := .idle, done := t.done, crc := t.crc, ld := t.ld, rom := t.rom
        dqDrive := false, trace := t.trace }

/-- R189, an inference of the spec: the slots of each path: none when done, the reset slot alone on a reset
failure, and past it 201, or 3 k + 8 for an abort at bit k, the trace then ending R(1) R(1). -/
def Obligations.OwSnextSlotsPerPath : Prop :=
  ∀ (o : Oracle) (s : State), ∃ es : List BusEvent, (owSnext o s).trace = s.trace ++ es ∧
    if s.done = true then es = []
    else if o s.trace .idle = false ∨ o s.trace .presence = true then
      es = [.rst (o s.trace .presence) (o s.trace .idle)]
    else es.length = 201 ∨
      ∃ k, 1 ≤ k ∧ k ≤ 64 ∧ es.length = 3 * k + 8 ∧ ∃ pre, es = pre ++ [.r true, .r true]

/-- R191, an inference of the spec: OW_SNEXT is a function of LD, DONE, ROM and the BUS's answers: two states of an
instance that agree on these and on the trace end with the same result, session, buffer and trace. -/
def Obligations.SearchPassIsAFunctionOfSessionBufferAndAnswers : Prop :=
  ∀ s₁ s₂ : State, s₁.inst = s₂.inst → s₁.trace = s₂.trace → s₁.ld = s₂.ld → s₁.done = s₂.done →
    s₁.rom = s₂.rom → ∃ t₁ t₂ : State, exec .owSnext s₁ = .next t₁ ∧ exec .owSnext s₂ = .next t₂ ∧
      t₁.result = t₂.result ∧ t₁.trace = t₂.trace ∧ t₁.ld = t₂.ld ∧ t₁.done = t₂.done ∧ t₁.rom = t₂.rom

/-- R187, an inference of the spec: with LD = 0 no pass reads the old buffer: the result, the session, CRC and the
trace do not depend on it, and neither does a RomId that is found. -/
def Obligations.FreshPassIgnoresOldBuffer : Prop :=
  ∀ (o : Oracle) (s : State) (rom' : Vector Byte 8), s.ld = 0#7 →
    let t := owSnext o s
    let t' := owSnext o { s with rom := rom' }
    t.result = t'.result ∧ t.ld = t'.ld ∧ t.done = t'.done ∧ t.crc = t'.crc ∧ t.trace = t'.trace ∧
      (t.result = .found → t.rom = t'.rom)

/-- R194, an inference of the spec: with exactly one device on the reference bus, the first pass of a fresh session
returns FOUND with that device's RomId, LD = 0 and DONE = 1. -/
def Obligations.SingleDeviceIsFound : Prop :=
  ∀ (id : Vector Byte 8) (s : State), RefBus.validId id = true → s.ld = 0#7 → s.done = false →
    let t := owSnext (RefBus.searchBus [id]) s
    t.result = .found ∧ t.rom = id ∧ t.ld = 0#7 ∧ t.done = true

/-- R190, an inference of the spec: on the reference bus with a non-empty set of devices with valid, pairwise
different RomIds, the passes after OW_SRST return every RomId exactly once, in ascending order of the bit strings;
DONE becomes 1 at the last FOUND and not before; the next pass completes NOT_FOUND with no slot. -/
def Obligations.DiscoveryEnumeratesEveryDevice : Prop :=
  ∀ (devices : List (Vector Byte 8)) (s : State), devices ≠ [] → devices.Nodup →
    (∀ id ∈ devices, RefBus.validId id = true) →
    let o := RefBus.searchBus devices
    let found := RefBus.discover o devices.length (owSrst s)
    found.1.Perm devices ∧ found.1.Pairwise (fun a b => RefBus.before a b = true) ∧
      found.2.result = .found ∧ found.2.done = true ∧
      (∀ n, n < devices.length → (RefBus.discover o n (owSrst s)).2.done = false) ∧
      owSnext o found.2 = { found.2 with result := .notFound }

/-! ### The host interface -/

/-- R22, R33, R34: the register at each offset of the window. -/
def Obligations.RegisterMap : Prop :=
  ∀ s : State, regRead s 0x0 = s.cmd ∧ regRead s 0x1 = s.arg ∧ regRead s 0x2 = statusByte s ∧
    regRead s 0x3 = s.data ∧ regRead s 0x4 = s.crc ∧ regRead s 0x5 = s.ld.setWidth 8 ∧
    regRead s 0x6 = 0x00#8 ∧ regRead s 0x7 = 0x00#8 ∧
    ∀ (j : Nat) (h : j < 8), regRead s (0x8 + j) = s.rom[j]

/-- R25, R26: STATUS holds BUSY in bit 0, RESULT in bits 3 to 1, DONE in bit 4, and bits 7 to 5 read 0; the eight
codes. -/
def Obligations.StatusLayout : Prop :=
  (∀ s : State, (statusByte s).getLsbD 0 = decide (s.phase = .running) ∧
    (statusByte s).extractLsb' 1 3 = resultCode s.result ∧ (statusByte s).getLsbD 4 = s.done ∧
    (statusByte s).extractLsb' 5 3 = 0#3) ∧
  resultCode .none = 0#3 ∧ resultCode .ok = 1#3 ∧ resultCode .presence = 2#3 ∧ resultCode .noPresence = 3#3 ∧
    resultCode .busError = 4#3 ∧ resultCode .found = 5#3 ∧ resultCode .notFound = 6#3 ∧
    resultCode .illegal = 7#3

/-- R64: a HOST write of a byte to CMD while BUSY = 0 stores it, latches (ARG, CMD), sets BUSY, and writes nothing
else; the command then runs as one ENGINE step. -/
def Obligations.CmdWriteStartsCommand : Prop :=
  ∀ (s : State) (turns : List Turn) (c : Byte), HostMoves s turns → s.phase = .idle →
    s.host.move = .write .byte 0x0 c →
    let t : State := { s with
      schedule := turns, host := s.host.goOn, cmd := c, lcmd := commandWord s.arg c, phase := .running }
    step s = .next t ∧ ∀ turns', EngineMoves t turns' → step t = engineStep { t with schedule := turns' }

/-- R65: while BUSY = 0 a HOST write to ARG stores its value, and a write to offsets 0x2 to 0xF changes no state
but the HOST's place in its program. -/
def Obligations.IdleWritesStoreArgOrAreIgnored : Prop :=
  ∀ (s : State) (turns : List Turn) (v : Byte), HostMoves s turns → s.phase = .idle →
    (s.host.move = .write .byte 0x1 v →
      step s = .next { s with schedule := turns, host := s.host.goOn, arg := v }) ∧
    ∀ off, 0x2 ≤ off → off ≤ 0xF → s.host.move = .write .byte off v →
      step s = .next { s with schedule := turns, host := s.host.goOn }

/-- R67: while BUSY = 0 a HOST read gets back the register's current value, into its variable, and has no side
effect; reserved offsets and reserved bits read 0. -/
def Obligations.IdleReadsReturnTheRegister : Prop :=
  (∀ (s : State) (turns : List Turn) (off x : Nat), HostMoves s turns → s.phase = .idle →
    off < 16 → s.host.move = .read .byte off x →
    step s = .next { s with
      schedule := turns, host := s.host.receive x (regRead s off), reads := s.reads ++ [regRead s off] }) ∧
  ∀ s : State, regRead s 0x6 = 0x00#8 ∧ regRead s 0x7 = 0x00#8 ∧
    (regRead s 0x2).extractLsb' 5 3 = 0#3 ∧ (regRead s 0x5).getLsbD 7 = false

/-- R66: while BUSY = 1 any HOST write is refused; a read changes nothing of OWCORE's, and a read of STATUS gets
BUSY = 1. (The value read is free, and the model counts the draw: log entry 4.) -/
def Obligations.BusyWritesRefusedBusyReadsHarmless : Prop :=
  ∀ (s : State) (turns : List Turn) (off : Nat), HostMoves s turns → s.phase = .running → off < 16 →
    (∀ v, s.host.move = .write .byte off v → step s = .refused .writeWhileBusy) ∧
    (∀ x, s.host.move = .read .byte off x → ∃ v : Byte,
      step s = .next { s with
        schedule := turns, host := s.host.receive x v, reads := s.reads ++ [v], draws := s.draws + 1 } ∧
      (off = 0x2 → v.getLsbD 0 = true))

/-- R62: an access in the window wider than one byte is refused, whatever BUSY is. The model's choices: an access
outside the window faults (log entry 7), and which stop an access gets that is wrong in two ways, the offset checked
before the width and the width before BUSY (log entry 25, DESIGN CHOICE). -/
def Obligations.WideAccessesRefusedOutsideAccessesFault : Prop :=
  ∀ (s : State) (turns : List Turn) (off x : Nat) (v : Byte), HostMoves s turns →
    (off < 16 → (s.host.move = .read .wider off x ∨ s.host.move = .write .wider off v) →
      step s = .refused .wideAccess) ∧
    ∀ width, 16 ≤ off → (s.host.move = .read width off x ∨ s.host.move = .write width off v) →
      step s = .fault .outsideWindow

/-- R91, R66, R67: OW_WAIT polls STATUS: while BUSY = 1 a poll leaves the HOST in the loop, and at BUSY = 0 it
leaves the loop. That a poll sets no host variable is the model's choice (log entry 27). -/
def Obligations.OwWaitPollsUntilBusyIsZero : Prop :=
  ∀ (s : State) (turns : List Turn), HostMoves s turns → s.host.move = .poll →
    (s.phase = .idle → step s = .next { s with
      schedule := turns, host := s.host.goOn, reads := s.reads ++ [statusByte s] }) ∧
    (s.phase = .running → ∃ v : Byte, v.getLsbD 0 = true ∧
      step s = .next { s with schedule := turns, reads := s.reads ++ [v], draws := s.draws + 1 })

/-- R64, R70, R72, R91: from an IDLE state with no turn scheduled, the expansion of a command in a HOST program
(its ARG write if it has an operand, with any expression for it, its CMD write, OW_WAIT) runs exactly that command:
the word latched decodes to it, and after the poll the state is the one exec gives, with the HOST past the loop. The
model's choices, both DESIGN CHOICE: that the ENGINE completes before the first poll, and so the number of steps, is
the order with no turn scheduled (log entry 10; R258 gives only that the ENGINE moves at last), and the HOST and its
program are the model's form of them (log entries 9 and 27). -/
def Obligations.HostCommandRunsTheInstruction : Prop :=
  ∀ (i : Instr) (operand : HostExpr) (s : State) (rest : List HostOp), s.phase = .idle → s.schedule = [] →
    s.host.program.drop s.host.pc = commandLine i.mnemonic operand ++ rest →
    (∀ v, operandByte i = some v → (s.host.eval operand).setWidth 8 = v) →
    let n := (commandLine i.mnemonic operand).length
    let arg := (operandByte i).getD s.arg
    let issued : State := { s with
      host := { s.host with pc := s.host.pc + (n - 1) }, arg := arg, cmd := commandByte i
      lcmd := commandWord arg (commandByte i), phase := .running }
    decode issued.lcmd = .command i ∧ ∃ t : State, exec i issued = .next t ∧
      Host.Core.run Sys2Proof.core (n + 1) s =
        .next { t with host := { s.host with pc := s.host.pc + n }, reads := t.reads ++ [statusByte t] }

/-! ### Reset -/

/-- R240: the state after reset, and a hardware reset in either phase: every piece of state takes its reset value,
and the bus trace is not cleared; while IDLE it is unchanged. -/
def Obligations.HardwareResetGivesTheResetState : Prop :=
  IsResetState State.reset ∧ (∀ off, off < 16 → regRead State.reset off = 0x00#8) ∧
  ∀ (s : State) (slots : Nat) (turns : List Turn), s.schedule = .hardwareReset slots :: turns →
    ∃ t : State, step s = .next t ∧ IsResetState t ∧ s.trace <+: t.trace ∧
      (s.phase = .idle → t.trace = s.trace)

/-- R242: a hardware reset while a command runs abandons it with no `complete`: every piece of state takes its
reset value, and for j from 0 to the command's slot count the trace gains the events of its first j slots, then
ABORT if j is less than the count. -/
def Obligations.HardwareResetAbandonsTheCommand : Prop :=
  ∀ (s : State) (slots : Nat) (turns : List Turn), s.phase = .running →
    s.schedule = .hardwareReset slots :: turns →
    ∃ (u t : State) (es : List BusEvent), engineStep { s with schedule := turns } = .next u ∧
      u.trace = s.trace ++ es ∧ step s = .next t ∧ IsResetState t ∧
      (slots ≤ es.length →
        t.trace = s.trace ++ es.take slots ++ (if slots < es.length then [.abort] else []))

/-! ### The whole machine -/

/-- The state after reset meets the invariant (R240). -/
def Obligations.ResetMeetsInvariant : Prop := Inv State.reset

/-- R32, R35, R42, R103, R184, R26: every step keeps the invariant: LD stays in 0 to 64, the line released, the
latch what ARG and CMD hold, the buffer CRC-valid while RESULT = FOUND, a done session at LD = 0, and every result
register at its reset value while RESULT = NONE; and the HOST's cells their canonical form, the model's own (log entry
26). -/
def Obligations.StepKeepsInvariant : Prop :=
  ∀ s t : State, Inv s → step s = .next t → Inv t

/-- R41: no step shortens or rewrites the bus trace. -/
def Obligations.TraceIsNeverShortened : Prop :=
  ∀ s t : State, step s = .next t → s.trace <+: t.trace

/-- R38, an inference of the spec: each command writes only the state its row of the table names, completes with
one of its row's results and clears BUSY, and performs no slot where its row says none; an illegal byte writes
RESULT and BUSY alone. -/
def Obligations.CommandsWriteOnlyTheirState : Prop :=
  (∀ (i : Instr) (s t : State), exec i s = .next t →
    t = { s with
      result := t.result, phase := .idle, data := t.data, crc := t.crc, ld := t.ld, done := t.done
      rom := t.rom, dqDrive := t.dqDrive, trace := t.trace } ∧
    (i.mnemonic ≠ .owRbit → i.mnemonic ≠ .owRbyte → t.data = s.data) ∧
    (i.mnemonic ≠ .owCrcld → i.mnemonic ≠ .owCrcup → i.mnemonic ≠ .owSnext → t.crc = s.crc) ∧
    (i.mnemonic ≠ .owSrst → i.mnemonic ≠ .owSnext → t.ld = s.ld ∧ t.done = s.done) ∧
    (i.mnemonic ≠ .owSnext → t.rom = s.rom) ∧
    (i.mnemonic = .owCrcld ∨ i.mnemonic = .owCrcup ∨ i.mnemonic = .owSrst →
      t.trace = s.trace ∧ t.dqDrive = s.dqDrive) ∧
    (i.mnemonic = .owReset → t.result = .presence ∨ t.result = .noPresence ∨ t.result = .busError) ∧
    (i.mnemonic = .owSnext → t.result = .found ∨ t.result = .notFound) ∧
    (i.mnemonic ≠ .owReset → i.mnemonic ≠ .owSnext → t.result = .ok)) ∧
  ∀ (s : State) (why : IllegalWord), decode s.lcmd = .illegal why →
    engineStep s = .next { s with result := .illegal, phase := .idle }

/-- R227, an inference of the spec: every command, whatever the BUS answers, answers a next state with the ENGINE
IDLE after at most 201 slots. -/
def Obligations.CommandsAlwaysComplete : Prop :=
  ∀ (i : Instr) (s : State), ∃ (t : State) (es : List BusEvent), exec i s = .next t ∧ t.phase = .idle ∧
    t.trace = s.trace ++ es ∧ es.length ≤ 201

/-- R27, R65, R66, R68: RESULT, DATA, CRC, LD, DONE, ROM and the bus change in no step but the completion of a
command and a hardware reset: no HOST access writes them. -/
def Obligations.ResultsChangeOnlyAtCompletionOrReset : Prop :=
  ∀ s t : State, step s = .next t →
    (s.phase = .running ∧ t.phase = .idle) ∨ (∃ slots turns, s.schedule = .hardwareReset slots :: turns) ∨
    (t.result = s.result ∧ t.data = s.data ∧ t.crc = s.crc ∧ t.ld = s.ld ∧ t.done = s.done ∧
      t.rom = s.rom ∧ t.trace = s.trace ∧ t.dqDrive = s.dqDrive)

/-- R28, R43: the phase goes from IDLE to RUNNING only on a HOST write of CMD, and from RUNNING to IDLE only on the
ENGINE's completion step or a hardware reset. -/
def Obligations.PhaseChangesOnlyByCmdWriteCompletionOrReset : Prop :=
  ∀ s t : State, step s = .next t →
    (s.phase = .idle → t.phase = .running → ∃ c, s.host.move = .write .byte 0x0 c ∧
      t.cmd = c ∧ t.lcmd = commandWord s.arg c) ∧
    (s.phase = .running → t.phase = .idle →
      (∃ slots turns, s.schedule = .hardwareReset slots :: turns) ∨
      ∃ s' : State, s' = { s with schedule := s.schedule.tail } ∧ engineStep s' = .next t)

/-- R29 (with R184, by which LD is the marker): DONE is written by OW_SNEXT when it completes FOUND, by OW_SRST and
by hardware reset, and by nothing else. -/
def Obligations.DoneIsWrittenOnlyByThree : Prop :=
  (∀ s t : State, exec .owSnext s = .next t →
    t.done = if t.result = .found then decide (t.ld = 0#7) else s.done) ∧
  (∀ s t : State, exec .owSrst s = .next t → t.done = false) ∧
  (∀ (slots : Nat) (s : State), (hardwareReset slots s).done = false) ∧
  ∀ s t : State, step s = .next t → t.done ≠ s.done →
    (∃ slots turns, s.schedule = .hardwareReset slots :: turns) ∨
    (s.phase = .running ∧ decode s.lcmd = .command .owSrst) ∨
    (s.phase = .running ∧ decode s.lcmd = .command .owSnext ∧ t.result = .found)

/-- R213, R214, R227: a HOST that keeps its duty at its next access meets no stop: whoever moves, the step answers
a next state. -/
def Obligations.DutifulHostNeverStops : Prop := ∀ s : State, HostDuty s → SafeStep s

/-- R77: a step of one instance leaves every other instance as it is, and moves its own as `step` does. -/
def Obligations.InstancesShareNoState : Prop :=
  ∀ (k : Nat) (all all' : List State), stepInstance k all = .next all' →
    all'.length = all.length ∧ (∀ j, j ≠ k → all'[j]? = all[j]?) ∧
    ∀ s, all[k]? = some s → ∃ t, step s = .next t ∧ all'[k]? = some t

/-- R132, R257: the source's nominal durations, counted by the model's durations of events and gaps (log entry 14,
DEDUCED): 950 microseconds for a reset slot, 70 for a write or read slot with the sample at 15, 567 for a byte command,
and 14957 for a full search walk. The reset slot and the walk are counted without their idle check, to which R257 gives
no length ("14,957 + idle check"). -/
def Obligations.NominalDurations : Prop :=
  (∀ p idle, slotMicros Config.nominal (.rst p idle) = 950) ∧
  (∀ b, slotMicros Config.nominal (.w b) = 70 ∧ slotMicros Config.nominal (.r b) = 70) ∧
  readSampleMicros Config.nominal = 15 ∧
  (∀ v : Byte, commandMicros Config.nominal (.owWbyte v) ((wireBits v).map BusEvent.w) = 567) ∧
  (∀ vs : List Bool, vs.length = 8 → commandMicros Config.nominal .owRbyte (vs.map BusEvent.r) = 567) ∧
  ∀ (p idle : Bool) (es : List BusEvent), es.length = 200 → (∀ e ∈ es, ∃ b, e = .w b ∨ e = .r b) →
    commandMicros Config.nominal .owSnext (.rst p idle :: es) = 14957

/-! ### The HOST program and the run -/

/-- R13, R91: the HOST's control flow, each operation at its place: a computation, a store, a branch taken or not,
and the values an access takes from the HOST's variables and memory. A move of the HOST's own changes nothing of
OWCORE's, and a HOST past its program's end does nothing. The operations are the model's form of the HOST's language
(log entry 26). -/
def Obligations.HostControlFlow : Prop :=
  (∀ (h : HostState) (x : Nat) (e : HostExpr), h.program[h.pc]? = some (.set x e) →
    h.move = .own { h with vars := cellPut h.vars x (h.eval e), pc := h.pc + 1 }) ∧
  (∀ (h : HostState) (addr e : HostExpr), h.program[h.pc]? = some (.store addr e) →
    h.move = .own { h with mem := cellPut h.mem (h.eval addr).toNat (h.eval e), pc := h.pc + 1 }) ∧
  (∀ (h : HostState) (c : HostExpr) (by_ : Int), h.program[h.pc]? = some (.branch c by_) →
    (h.eval c ≠ 0 → h.move = .own { h with pc := (h.pc + by_).toNat }) ∧
    (h.eval c = 0 → h.move = .own { h with pc := h.pc + 1 })) ∧
  (∀ (h : HostState) (width : Width) (off v : HostExpr), h.program[h.pc]? = some (.write width off v) →
    h.move = .write width (h.eval off).toNat ((h.eval v).setWidth 8)) ∧
  (∀ (h : HostState) (width : Width) (off : HostExpr) (x : Nat), h.program[h.pc]? = some (.read width off x) →
    h.move = .read width (h.eval off).toNat x) ∧
  (∀ h : HostState, (h.program[h.pc]? = some .wait → h.move = .poll) ∧
    (h.program.length ≤ h.pc → h.move = .ended)) ∧
  ∀ (s : State) (turns : List Turn), HostMoves s turns →
    (∀ h, s.host.move = .own h → step s = .next { s with schedule := turns, host := h }) ∧
    (s.host.move = .ended → step s = .next { s with schedule := turns })

/-- R13, R91: a value read steers what the HOST does next. A read leaves its byte in its variable and every other
variable as it was, so an operand or a branch over that variable takes the register's value; likewise a store leaves
its value in its cell of `hmem`, and every other cell as it was (log entry 26). -/
def Obligations.HostReadsFeedItsControlFlow : Prop :=
  (∀ (s : State) (turns : List Turn) (off x : Nat), HostMoves s turns → s.phase = .idle → off < 16 →
    s.host.wf → s.host.move = .read .byte off x → ∃ t : State, step s = .next t ∧
      t.host.eval (.var x) = (regRead s off).setWidth 64 ∧
      (∀ y, y ≠ x → t.host.eval (.var y) = s.host.eval (.var y)) ∧
      t.host.mem = s.host.mem ∧ t.host.program = s.host.program ∧ t.host.pc = s.host.pc + 1) ∧
  ∀ (h : HostState) (addr e : HostExpr), h.wf → h.program[h.pc]? = some (.store addr e) →
    ∃ h', h.move = .own h' ∧ (∀ a : HostWord,
      h'.eval (.mem (.const a)) = if a = h.eval addr then h.eval e else h.eval (.mem (.const a))) ∧
      h'.vars = h.vars ∧ h'.program = h.program ∧ h'.pc = h.pc + 1

/-- R91: from an IDLE state with no turn scheduled, `OW_RSLT r` leaves STATUS.RESULT, and nothing else, in the HOST's
variable r; OWCORE is as it was. That it takes three steps rests on the order with no turn scheduled (log entry 10) and
on the HOST's form (log entries 9, 26 and 27), the model's choices. -/
def Obligations.OwRsltReadsTheResult : Prop :=
  ∀ (r : Nat) (s : State) (rest : List HostOp), s.phase = .idle → s.schedule = [] → s.host.wf →
    s.host.program.drop s.host.pc = owRslt r ++ rest →
    ∃ h : HostState, Host.Core.run Sys2Proof.core 3 s =
        .next { s with host := h, reads := s.reads ++ [statusByte s, statusByte s] } ∧
      h.eval (.var r) = (resultCode s.result).setWidth 64 ∧
      (∀ y, y ≠ r → h.eval (.var y) = s.host.eval (.var y)) ∧
      h.mem = s.host.mem ∧ h.program = s.host.program ∧ h.pc = s.host.pc + 3

/-- R13: a run is launched from any state, with any HOST program and memory, the BUS of the state's instance, and the
empty bus trace; OWCORE's other state is as it was, and the HOST stands at its program's first operation, every variable
0 (log entries 24 and 26). The normal launch is from the reset state. -/
def Obligations.LaunchTakesAnyStateAndProgram : Prop :=
  (∀ (s : State) (program : List HostOp) (mem : List (Nat × HostWord)) (turns : List Turn),
    let t := launch s program mem turns
    t = { s with host := t.host, schedule := turns, reads := [], trace := [] } ∧
      t.host.program = program ∧ t.host.mem = mem ∧ t.host.pc = 0 ∧ (∀ x, t.host.eval (.var x) = 0) ∧
      (observe t).registers = (observe s).registers ∧ (observe t).trace = []) ∧
  ∀ (inst : Nat) (program : List HostOp) (turns : List Turn), IsResetState (launchFromReset inst program turns)

/-- R13: the end of a run. A run has at most one end, its first point with the HOST past its last access and the ENGINE
IDLE; a run that stops has none from there on; from that point on every step that is not a hardware reset stays there and
leaves the final observation as it is. A HOST past its program's end has executed its last access (log entry 23). -/
def Obligations.RunEndIsUniqueAndFinal : Prop :=
  (∀ (s t t' : State) (k k' : Nat), RunEndsAt s t k → RunEndsAt s t' k' → k = k' ∧ t = t') ∧
  (∀ (s t : State) (j k : Nat), j ≤ k → (∀ u, Host.Core.run Sys2Proof.core j s ≠ .next u) → ¬ RunEndsAt s t k) ∧
  (∀ s : State, s.RunEnded → (∀ slots turns, s.schedule ≠ .hardwareReset slots :: turns) →
    ∃ t : State, step s = .next t ∧ t.RunEnded ∧ observe t = observe s) ∧
  ∀ s : State, s.host.program.length ≤ s.host.pc → s.phase = .idle → s.RunEnded
end

