-- ==== Sys2Proof/Laws/HostLang.lean ====
section
/-! SUPPORT. The HOST's cells and what each operation of its program does to it, said once (00_scope.md R13). -/

namespace Sys2Proof.Machine

/-! ### Cells -/

theorem cellsWf_nil : cellsWf [] := ⟨List.Pairwise.nil, by simp⟩

theorem cellsWf_cons {k : Nat} {w : HostWord} {rest : List (Nat × HostWord)} :
    cellsWf ((k, w) :: rest) ↔ w ≠ 0 ∧ (∀ p ∈ rest, k < p.1) ∧ cellsWf rest := by
  simp only [cellsWf, List.map_cons, List.pairwise_cons, List.mem_map, forall_exists_index, and_imp,
    forall_apply_eq_imp_iff₂, List.forall_mem_cons]
  tauto

/-- A number below every listed one is unlisted. -/
theorem cellGet_of_lt {c : List (Nat × HostWord)} {a : Nat} (h : ∀ p ∈ c, a < p.1) : cellGet c a = 0 := by
  induction c with
  | nil => rfl
  | cons p rest ih =>
    obtain ⟨k, w⟩ := p
    have hk := h (k, w) List.mem_cons_self
    rw [cellGet, if_neg (by simp only at hk; omega)]
    exact ih fun q hq => h q (List.mem_cons_of_mem _ hq)

theorem cellGet_cellCons {a b : Nat} {v : HostWord} {rest : List (Nat × HostWord)} (h : ∀ p ∈ rest, a < p.1) :
    cellGet (cellCons a v rest) b = if b = a then v else cellGet rest b := by
  unfold cellCons
  by_cases hv : v = 0
  · rw [if_pos hv]
    by_cases hb : b = a
    · rw [if_pos hb, hb, cellGet_of_lt h, hv]
    · rw [if_neg hb]
  · rw [if_neg hv]; rfl

theorem cellCons_wf {a : Nat} {v : HostWord} {rest : List (Nat × HostWord)} (hw : cellsWf rest)
    (h : ∀ p ∈ rest, a < p.1) : cellsWf (cellCons a v rest) := by
  unfold cellCons
  by_cases hv : v = 0
  · rwa [if_pos hv]
  · rw [if_neg hv, cellsWf_cons]
    exact ⟨hv, h, hw⟩

/-- What is listed after a write was listed before, or is the number written. -/
theorem cellPut_bound {c : List (Nat × HostWord)} {a m : Nat} {v : HostWord} (ha : m < a)
    (h : ∀ p ∈ c, m < p.1) : ∀ p ∈ cellPut c a v, m < p.1 := by
  have cons : ∀ rest : List (Nat × HostWord), (∀ p ∈ rest, m < p.1) → ∀ p ∈ cellCons a v rest, m < p.1 := by
    intro rest hr p hp
    unfold cellCons at hp
    split at hp
    · exact hr p hp
    · rcases List.mem_cons.1 hp with rfl | hp
      · exact ha
      · exact hr p hp
  induction c with
  | nil => exact cons [] h
  | cons q rest ih =>
    obtain ⟨k, w⟩ := q
    obtain ⟨hk, hrest⟩ := List.forall_mem_cons.1 h
    rw [cellPut]
    split
    · exact cons _ h
    · split
      · exact cons _ hrest
      · exact List.forall_mem_cons.2 ⟨hk, ih hrest⟩

/-- A write keeps the canonical form. -/
theorem cellPut_wf {c : List (Nat × HostWord)} (a : Nat) (v : HostWord) (h : cellsWf c) :
    cellsWf (cellPut c a v) := by
  induction c with
  | nil => exact cellCons_wf cellsWf_nil (by simp)
  | cons q rest ih =>
    obtain ⟨k, w⟩ := q
    obtain ⟨h1, h2, h3⟩ := cellsWf_cons.1 h
    rw [cellPut]
    split
    · rename_i hlt
      refine cellCons_wf h (List.forall_mem_cons.2 ⟨hlt, fun p hp => ?_⟩)
      have := h2 p hp
      omega
    · split
      · rename_i heq
        exact cellCons_wf h3 (by rw [heq]; exact h2)
      · rename_i hlt hne
        exact cellsWf_cons.2 ⟨h1, cellPut_bound (by omega) h2, ih h3⟩

/-- A read after a write gives the value written at its number, and leaves every other number alone. -/
theorem cellGet_cellPut {c : List (Nat × HostWord)} (a b : Nat) (v : HostWord) (h : cellsWf c) :
    cellGet (cellPut c a v) b = if b = a then v else cellGet c b := by
  induction c with
  | nil => exact cellGet_cellCons (by simp)
  | cons q rest ih =>
    obtain ⟨k, w⟩ := q
    obtain ⟨_, h2, h3⟩ := cellsWf_cons.1 h
    rw [cellPut]
    split
    · rename_i hlt
      refine cellGet_cellCons (List.forall_mem_cons.2 ⟨hlt, fun p hp => ?_⟩)
      have := h2 p hp
      omega
    · split
      · rename_i heq
        subst heq
        rw [cellGet_cellCons h2, cellGet]
        by_cases hb : b = a <;> simp [hb]
      · rename_i hlt hne
        rw [cellGet, cellGet, ih h3]
        by_cases hb : b = k
        · rw [if_pos hb, if_neg (by omega), if_pos hb]
        · rw [if_neg hb, if_neg hb]

/-! ### The HOST's updates -/

variable (h : HostState)

@[simp] theorem goOn_program : h.goOn.program = h.program := rfl
@[simp] theorem goOn_pc : h.goOn.pc = h.pc + 1 := rfl
@[simp] theorem goOn_vars : h.goOn.vars = h.vars := rfl
@[simp] theorem goOn_mem : h.goOn.mem = h.mem := rfl
@[simp] theorem assign_program (x : Nat) (v : HostWord) : (h.assign x v).program = h.program := rfl
@[simp] theorem assign_pc (x : Nat) (v : HostWord) : (h.assign x v).pc = h.pc + 1 := rfl
@[simp] theorem assign_vars (x : Nat) (v : HostWord) : (h.assign x v).vars = cellPut h.vars x v := rfl
@[simp] theorem assign_mem (x : Nat) (v : HostWord) : (h.assign x v).mem = h.mem := rfl
@[simp] theorem receive_program (x : Nat) (v : Byte) : (h.receive x v).program = h.program := rfl
@[simp] theorem receive_pc (x : Nat) (v : Byte) : (h.receive x v).pc = h.pc + 1 := rfl
@[simp] theorem receive_vars (x : Nat) (v : Byte) :
    (h.receive x v).vars = cellPut h.vars x (v.setWidth 64) := rfl
@[simp] theorem receive_mem (x : Nat) (v : Byte) : (h.receive x v).mem = h.mem := rfl
@[simp] theorem storeCell_program (a : Nat) (v : HostWord) : (h.storeCell a v).program = h.program := rfl
@[simp] theorem storeCell_pc (a : Nat) (v : HostWord) : (h.storeCell a v).pc = h.pc + 1 := rfl
@[simp] theorem storeCell_vars (a : Nat) (v : HostWord) : (h.storeCell a v).vars = h.vars := rfl
@[simp] theorem storeCell_mem (a : Nat) (v : HostWord) : (h.storeCell a v).mem = cellPut h.mem a v := rfl
@[simp] theorem jump_program (d : Int) : (h.jump d).program = h.program := rfl
@[simp] theorem jump_pc (d : Int) : (h.jump d).pc = (h.pc + d).toNat := rfl
@[simp] theorem jump_vars (d : Int) : (h.jump d).vars = h.vars := rfl
@[simp] theorem jump_mem (d : Int) : (h.jump d).mem = h.mem := rfl

variable {h}

/-- The HOST does the operation at its place. -/
theorem move_of_getElem {op : HostOp} (hg : h.program[h.pc]? = some op) : h.move = h.moveOf op := by
  simp [HostState.move, hg]

/-- The HOST past its program's last operation has ended. -/
theorem move_of_length_le (hl : h.program.length ≤ h.pc) : h.move = .ended := by
  simp [HostState.move, List.getElem?_eq_none hl]

/-- A piece of program that the HOST has reached begins with the operation at its place. -/
theorem getElem_of_drop {ops rest : List HostOp} {op : HostOp} {k : Nat} (hd : ops.drop k = op :: rest) :
    ops[k]? = some op ∧ ops.drop (k + 1) = rest := by
  constructor
  · have : (ops.drop k)[0]? = some op := by rw [hd]; rfl
    simpa using this
  · rw [← List.drop_drop, hd]; rfl

/-- What a move of the HOST's own can do: set a variable, store a cell, jump, or go on. -/
theorem move_own_cases {h' : HostState} (hm : h.move = .own h') :
    (∃ x v, h' = h.assign x v) ∨ (∃ a v, h' = h.storeCell a v) ∨ (∃ d, h' = h.jump d) ∨ h' = h.goOn := by
  unfold HostState.move at hm
  split at hm
  · cases hm
  · rename_i op _
    cases op with
    | read _ _ _ => cases hm
    | write _ _ _ => cases hm
    | wait => cases hm
    | set _ _ => cases hm; exact .inl ⟨_, _, rfl⟩
    | store _ _ => cases hm; exact .inr (.inl ⟨_, _, rfl⟩)
    | branch _ _ =>
      simp only [HostState.moveOf, HostMove.own.injEq] at hm
      split at hm
      · exact .inr (.inr (.inl ⟨_, hm.symm⟩))
      · exact .inr (.inr (.inr hm.symm))

/-- The HOST after one of its turns. -/
inductive HostState.Next (h : HostState) : HostState → Prop where
  | stay : HostState.Next h h
  | goOn : HostState.Next h h.goOn
  | receive (x : Nat) (v : Byte) : HostState.Next h (h.receive x v)
  | own (h' : HostState) (hm : h.move = .own h') : HostState.Next h h'

/-- A turn keeps the HOST's program. -/
theorem HostState.Next.program {h' : HostState} (n : h.Next h') : h'.program = h.program := by
  cases n with
  | stay => rfl
  | goOn => rfl
  | receive x v => rfl
  | own _ hm => rcases move_own_cases hm with ⟨_, _, rfl⟩ | ⟨_, _, rfl⟩ | ⟨_, rfl⟩ | rfl <;> rfl

/-- A turn keeps the HOST's cells in canonical form. -/
theorem HostState.Next.wf {h' : HostState} (n : h.Next h') (hw : h.wf) : h'.wf := by
  cases n with
  | stay => exact hw
  | goOn => exact hw
  | receive x v => exact ⟨cellPut_wf _ _ hw.1, hw.2⟩
  | own _ hm =>
    rcases move_own_cases hm with ⟨_, _, rfl⟩ | ⟨_, _, rfl⟩ | ⟨_, rfl⟩ | rfl
    · exact ⟨cellPut_wf _ _ hw.1, hw.2⟩
    · exact ⟨hw.1, cellPut_wf _ _ hw.2⟩
    · exact hw
    · exact hw

/-- A HOST past its program's end has executed its last access. -/
theorem finished_of_ended (hm : h.move = .ended) : h.Finished := by
  have turn : h.ownTurn = h := by simp [HostState.ownTurn, hm]
  intro n
  induction n with
  | zero => simp [HostState.ownTurns, hm, HostMove.accesses]
  | succ n ih => rwa [HostState.ownTurns, turn]

theorem HostState.Finished.accesses (hf : h.Finished) : h.move.accesses = false := hf 0

/-- What a finished HOST does next: nothing, or a move of its own. -/
theorem HostState.Finished.move_cases (hf : h.Finished) : h.move = .ended ∨ ∃ h', h.move = .own h' := by
  have ha := hf.accesses
  match hm : h.move with
  | .ended => exact .inl rfl
  | .read _ _ _ => rw [hm] at ha; cases ha
  | .write _ _ _ => rw [hm] at ha; cases ha
  | .poll => rw [hm] at ha; cases ha
  | .own h' => exact .inr ⟨h', rfl⟩

/-- A finished HOST stays finished after a move of its own. -/
theorem HostState.Finished.own {h' : HostState} (hf : h.Finished) (hm : h.move = .own h') : h'.Finished := by
  have turn : h.ownTurn = h' := by simp [HostState.ownTurn, hm]
  intro n
  have := hf (n + 1)
  rwa [HostState.ownTurns, turn] at this

end Sys2Proof.Machine
end

