-- ==== Sys2Proof/Laws/Operands.lean ====
section
/-! SUPPORT. The fields of a command word put together from its two bytes, and the bits of a byte. -/

namespace Sys2Proof.Machine

theorem commandWord_getLsbD (arg cmd : Byte) (i : Nat) :
    (commandWord arg cmd).getLsbD i = if i < 8 then cmd.getLsbD i else arg.getLsbD (i - 8) := by
  unfold commandWord
  rw [BitVec.getLsbD_append]

@[simp] theorem opcField_commandWord (arg cmd : Byte) :
    opcField (commandWord arg cmd) = cmd.extractLsb' 0 4 := by
  apply BitVec.eq_of_getLsbD_eq
  intro i hi
  rw [opcField, BitVec.getLsbD_extractLsb', BitVec.getLsbD_extractLsb', commandWord_getLsbD]
  simp only [Nat.zero_add, show i < 8 by omega, if_true]

@[simp] theorem rsvField_commandWord (arg cmd : Byte) :
    rsvField (commandWord arg cmd) = cmd.extractLsb' 4 4 := by
  apply BitVec.eq_of_getLsbD_eq
  intro i hi
  rw [rsvField, BitVec.getLsbD_extractLsb', BitVec.getLsbD_extractLsb', commandWord_getLsbD]
  simp only [show 4 + i < 8 by omega, if_true]

@[simp] theorem argField_commandWord (arg cmd : Byte) : argField (commandWord arg cmd) = arg := by
  apply BitVec.eq_of_getLsbD_eq
  intro i hi
  rw [argField, BitVec.getLsbD_extractLsb', commandWord_getLsbD]
  simp [hi]

@[simp] theorem bitOperand_commandWord (arg cmd : Byte) :
    bitOperand (commandWord arg cmd) = arg.getLsbD 0 := by
  rw [bitOperand, commandWord_getLsbD]
  simp

@[simp] theorem wbitReserved_commandWord (arg cmd : Byte) :
    wbitReserved (commandWord arg cmd) = arg.extractLsb' 1 7 := by
  apply BitVec.eq_of_getLsbD_eq
  intro i hi
  rw [wbitReserved, BitVec.getLsbD_extractLsb', BitVec.getLsbD_extractLsb', commandWord_getLsbD]
  rw [if_neg (by omega), show 9 + i - 8 = 1 + i by omega]

/-- Masking the ARG byte away leaves the CMD byte. -/
theorem commandWord_and_cmdMask (arg cmd : Byte) :
    commandWord arg cmd &&& 0x00FF#16 = BitVec.setWidth 16 cmd := by
  apply BitVec.eq_of_getLsbD_eq
  intro i hi
  have hm : (0x00FF#16 : Word).getLsbD i = decide (i < 8) := by
    have : ∀ j : Fin 16, (0x00FF#16 : Word).getLsbD j.val = decide (j.val < 8) := by decide
    exact this ⟨i, hi⟩
  rw [BitVec.getLsbD_and, commandWord_getLsbD, hm, BitVec.getLsbD_setWidth]
  by_cases h : i < 8
  · simp [h, hi]
  · simp [h, BitVec.getLsbD_of_ge cmd i (Nat.le_of_not_lt h)]

/-- Every word is the command word of its two bytes. -/
theorem commandWord_fields (w : Word) : commandWord (argField w) (w.extractLsb' 0 8) = w := by
  apply BitVec.eq_of_getLsbD_eq
  intro i hi
  rw [commandWord_getLsbD]
  by_cases h : i < 8
  · simp [h]
  · rw [if_neg h, argField, BitVec.getLsbD_extractLsb']
    simp [show i - 8 < 8 by omega, show 8 + (i - 8) = i by omega]

/-- `setBit` changes one bit and no other (43_romsearch.md R180). -/
theorem getLsbD_setBit (r : Byte) (i j : Nat) (v : Bool) (hi : i < 8) :
    (setBit r i v).getLsbD j = if j = i then v else r.getLsbD j := by
  have hone : ∀ k, ((0x01#8 : Byte) <<< i).getLsbD k = decide (k = i) := by
    intro k
    rw [BitVec.getLsbD_shiftLeft]
    by_cases hk : k < i
    · simp [hk, show ¬ k = i by omega]
    · rcases Nat.eq_or_lt_of_le (Nat.le_of_not_lt hk) with h | h
      · subst h; simp [hi]
      · have : (0x01#8 : Byte).getLsbD (k - i) = false := by
          have h1 : (0x01#8 : Byte) = BitVec.twoPow 8 0 := by decide
          rw [h1, BitVec.getLsbD_twoPow]
          simp; omega
        simp [this, show ¬ k = i by omega]
  unfold setBit
  cases v
  · by_cases hj : j = i
    · subst hj; simp [hone]
    · by_cases hj8 : j < 8
      · rw [if_neg (by simp), if_neg hj, BitVec.getLsbD_and, BitVec.getLsbD_not, hone]
        simp [hj, hj8]
      · rw [if_neg hj, BitVec.getLsbD_of_ge _ _ (Nat.le_of_not_lt hj8),
          BitVec.getLsbD_of_ge _ _ (Nat.le_of_not_lt hj8)]
  · simp only [if_true, BitVec.getLsbD_or, hone]
    by_cases hj : j = i <;> simp [hj]

@[simp] theorem wireBits_length (v : Byte) : (wireBits v).length = 8 := by simp [wireBits]

theorem wireBits_getElem (v : Byte) (i : Nat) (h : i < (wireBits v).length) :
    (wireBits v)[i] = v.getLsbD i := by simp [wireBits]

/-! ### The word of each command (30_encoding.md R90) -/

@[simp] theorem commandByte_owReset : commandByte .owReset = 0x01#8 := rfl

theorem encode_owReset : encode .owReset = commandWord 0x00#8 0x01#8 := by
  rw [encode, commandByte_owReset]; rfl

@[simp] theorem commandByte_owWbit (b : Bool) : commandByte (.owWbit b) = 0x02#8 := by
  show (0x0#4 ++ 0x2#4 : BitVec 8) = 0x02#8
  decide

theorem encode_owWbit (b : Bool) : encode (.owWbit b) = commandWord (bitArg b) 0x02#8 := by
  rw [encode, commandByte_owWbit]; rfl

@[simp] theorem commandByte_owRbit : commandByte .owRbit = 0x03#8 := rfl

theorem encode_owRbit : encode .owRbit = commandWord 0x00#8 0x03#8 := by
  rw [encode, commandByte_owRbit]; rfl

@[simp] theorem commandByte_owWbyte (v : Byte) : commandByte (.owWbyte v) = 0x04#8 := by
  show (0x0#4 ++ 0x4#4 : BitVec 8) = 0x04#8
  decide

theorem encode_owWbyte (v : Byte) : encode (.owWbyte v) = commandWord v 0x04#8 := by
  rw [encode, commandByte_owWbyte]; rfl

@[simp] theorem commandByte_owRbyte : commandByte .owRbyte = 0x05#8 := rfl

theorem encode_owRbyte : encode .owRbyte = commandWord 0x00#8 0x05#8 := by
  rw [encode, commandByte_owRbyte]; rfl

@[simp] theorem commandByte_owCrcld (v : Byte) : commandByte (.owCrcld v) = 0x06#8 := by
  show (0x0#4 ++ 0x6#4 : BitVec 8) = 0x06#8
  decide

theorem encode_owCrcld (v : Byte) : encode (.owCrcld v) = commandWord v 0x06#8 := by
  rw [encode, commandByte_owCrcld]; rfl

@[simp] theorem commandByte_owCrcup (v : Byte) : commandByte (.owCrcup v) = 0x07#8 := by
  show (0x0#4 ++ 0x7#4 : BitVec 8) = 0x07#8
  decide

theorem encode_owCrcup (v : Byte) : encode (.owCrcup v) = commandWord v 0x07#8 := by
  rw [encode, commandByte_owCrcup]; rfl

@[simp] theorem commandByte_owSrst : commandByte .owSrst = 0x08#8 := rfl

theorem encode_owSrst : encode .owSrst = commandWord 0x00#8 0x08#8 := by
  rw [encode, commandByte_owSrst]; rfl

@[simp] theorem commandByte_owSnext : commandByte .owSnext = 0x09#8 := rfl

theorem encode_owSnext : encode .owSnext = commandWord 0x00#8 0x09#8 := by
  rw [encode, commandByte_owSnext]; rfl

end Sys2Proof.Machine
end

