-- ==== Sys2Proof/Laws/PerInstr.lean ====
section
/-! SUPPORT. Per-instruction statements about the instruction as syntax. -/

/-- The assembler's word of a command matches its row of the opcode table, and its low byte, the byte the HOST
writes to CMD, has RSV = 0 and the row's opcode (30_encoding.md R80, R85, R90). -/
def Sys2Proof.Laws.TableRow.Statement (i : Sys2Proof.Instr) : Prop :=
  Sys2Proof.encode i &&& i.mnemonic.tableMask = i.mnemonic.tableMatch ∧
    Sys2Proof.Machine.rsvField (Sys2Proof.encode i) = 0#4 ∧
    Sys2Proof.Machine.opcField (Sys2Proof.encode i) = i.mnemonic.opcode

namespace Sys2Proof.Laws.TableRow

open Sys2Proof.Machine

theorem owReset : Statement .owReset := by
  unfold Statement; decide

theorem owWbit (b : Bool) : Statement (.owWbit b) := by
  cases b <;> unfold Statement <;> decide

theorem owRbit : Statement .owRbit := by
  unfold Statement; decide

theorem owWbyte (v : Sys2Proof.Byte) : Statement (.owWbyte v) := by
  unfold Statement
  rw [encode_owWbyte, rsvField_commandWord, opcField_commandWord]
  exact ⟨(commandWord_and_cmdMask v 0x04#8).trans (by decide : _ = 0x0004#16), by decide,
    (by decide : _ = 0x4#4)⟩

theorem owRbyte : Statement .owRbyte := by
  unfold Statement; decide

theorem owCrcld (v : Sys2Proof.Byte) : Statement (.owCrcld v) := by
  unfold Statement
  rw [encode_owCrcld, rsvField_commandWord, opcField_commandWord]
  exact ⟨(commandWord_and_cmdMask v 0x06#8).trans (by decide : _ = 0x0006#16), by decide,
    (by decide : _ = 0x6#4)⟩

theorem owCrcup (v : Sys2Proof.Byte) : Statement (.owCrcup v) := by
  unfold Statement
  rw [encode_owCrcup, rsvField_commandWord, opcField_commandWord]
  exact ⟨(commandWord_and_cmdMask v 0x07#8).trans (by decide : _ = 0x0007#16), by decide,
    (by decide : _ = 0x7#4)⟩

theorem owSrst : Statement .owSrst := by
  unfold Statement; decide

theorem owSnext : Statement .owSnext := by
  unfold Statement; decide

end Sys2Proof.Laws.TableRow
end

