-- ==== Sys2Proof/Laws/Rom.lean ====
section
/-! SUPPORT. The RomId buffer, byte by byte and bit by bit (10_state.md R34, R36; 43_romsearch.md R180). -/

namespace Sys2Proof.Machine

theorem romByte_of_lt (rom : Vector Byte 8) (j : Nat) (h : j < 8) : romByte rom j = rom[j] := by
  simp [romByte, h]

theorem romByte_romSetByte (rom : Vector Byte 8) (i j : Nat) (v : Byte) (h : i < 8) :
    romByte (romSetByte rom i v) j = if j = i then v else romByte rom j := by
  unfold romByte romSetByte
  rw [Vector.getElem?_setIfInBounds]
  by_cases hij : i = j
  · subst hij; simp [h]
  · rw [if_neg hij, if_neg (fun h => hij h.symm)]

/-- The buffer with address bit k made `v`. -/
def storeBit (rom : Vector Byte 8) (k : Nat) (v : Bool) : Vector Byte 8 :=
  romSetByte rom ((k - 1) / 8) (setBit (romByte rom ((k - 1) / 8)) ((k - 1) % 8) v)

/-- The store of one address bit changes that bit and no other (43_romsearch.md R180). -/
theorem romBit_storeBit (rom : Vector Byte 8) (k j : Nat) (v : Bool) (hk : 1 ≤ k) (hk' : k ≤ 64)
    (hj : 1 ≤ j) : romBit (storeBit rom k v) j = if j = k then v else romBit rom j := by
  unfold romBit storeBit
  rw [romByte_romSetByte _ _ _ _ (by omega)]
  by_cases hb : (j - 1) / 8 = (k - 1) / 8
  · rw [if_pos hb, getLsbD_setBit _ _ _ _ (by omega), hb]
    by_cases hjk : j = k
    · subst hjk; simp
    · rw [if_neg (by omega), if_neg hjk]
  · rw [if_neg hb, if_neg (by omega)]

/-- A byte of the buffer is decided by its address bits. -/
theorem romByte_ext (a b : Vector Byte 8) (j : Nat)
    (h : ∀ k, 8 * j + 1 ≤ k → k ≤ 8 * j + 8 → romBit a k = romBit b k) : romByte a j = romByte b j := by
  apply BitVec.eq_of_getLsbD_eq
  intro i hi
  have hk := h (8 * j + i + 1) (by omega) (by omega)
  unfold romBit at hk
  rwa [show (8 * j + i + 1 - 1) / 8 = j by omega, show (8 * j + i + 1 - 1) % 8 = i by omega] at hk

/-- Two buffers with the same 64 address bits are the same. -/
theorem rom_ext (a b : Vector Byte 8) (h : ∀ k, 1 ≤ k → k ≤ 64 → romBit a k = romBit b k) : a = b := by
  apply Vector.ext
  intro j hj
  have := romByte_ext a b j fun k h1 h2 => h k (by omega) (by omega)
  rwa [romByte_of_lt _ _ hj, romByte_of_lt _ _ hj] at this

/-- The first n + 1 bytes are the first n and byte n. -/
theorem rom_take_succ (rom : Vector Byte 8) (n : Nat) (h : n < 8) :
    rom.toList.take (n + 1) = rom.toList.take n ++ [romByte rom n] := by
  rw [List.take_add_one]
  simp [romByte, h]

/-- The first n bytes are decided by the first 8 n address bits. -/
theorem rom_take_ext (a b : Vector Byte 8) (n : Nat) (hn : n ≤ 8)
    (h : ∀ k, 1 ≤ k → k ≤ 8 * n → romBit a k = romBit b k) : a.toList.take n = b.toList.take n := by
  induction n with
  | zero => simp
  | succ n ih =>
    rw [rom_take_succ _ _ (by omega), rom_take_succ _ _ (by omega), ih (by omega) fun k h1 h2 => h k h1 (by omega),
      romByte_ext a b n fun k h1 h2 => h k (by omega) (by omega)]

end Sys2Proof.Machine
end

