-- ==== Sys2Proof/Laws/State.lean ====
section
/-! SUPPORT. One lemma per field per state update, so that no proof unfolds a record update. -/

namespace Sys2Proof.Machine

variable (s : State)

/-! ### complete -/

@[simp] theorem complete_cmd (c : Result) : (complete c s).cmd = s.cmd := rfl
@[simp] theorem complete_arg (c : Result) : (complete c s).arg = s.arg := rfl
@[simp] theorem complete_phase (c : Result) : (complete c s).phase = .idle := rfl
@[simp] theorem complete_lcmd (c : Result) : (complete c s).lcmd = s.lcmd := rfl
@[simp] theorem complete_result (c : Result) : (complete c s).result = c := rfl
@[simp] theorem complete_done (c : Result) : (complete c s).done = s.done := rfl
@[simp] theorem complete_data (c : Result) : (complete c s).data = s.data := rfl
@[simp] theorem complete_crc (c : Result) : (complete c s).crc = s.crc := rfl
@[simp] theorem complete_ld (c : Result) : (complete c s).ld = s.ld := rfl
@[simp] theorem complete_rom (c : Result) : (complete c s).rom = s.rom := rfl
@[simp] theorem complete_dqDrive (c : Result) : (complete c s).dqDrive = s.dqDrive := rfl
@[simp] theorem complete_trace (c : Result) : (complete c s).trace = s.trace := rfl
@[simp] theorem complete_inst (c : Result) : (complete c s).inst = s.inst := rfl
@[simp] theorem complete_host (c : Result) : (complete c s).host = s.host := rfl
@[simp] theorem complete_schedule (c : Result) : (complete c s).schedule = s.schedule := rfl
@[simp] theorem complete_reads (c : Result) : (complete c s).reads = s.reads := rfl
@[simp] theorem complete_draws (c : Result) : (complete c s).draws = s.draws := rfl

/-! ### completeIllegal -/

@[simp] theorem completeIllegal_cmd : (completeIllegal s).cmd = s.cmd := rfl
@[simp] theorem completeIllegal_arg : (completeIllegal s).arg = s.arg := rfl
@[simp] theorem completeIllegal_phase : (completeIllegal s).phase = .idle := rfl
@[simp] theorem completeIllegal_lcmd : (completeIllegal s).lcmd = s.lcmd := rfl
@[simp] theorem completeIllegal_result : (completeIllegal s).result = .illegal := rfl
@[simp] theorem completeIllegal_done : (completeIllegal s).done = s.done := rfl
@[simp] theorem completeIllegal_data : (completeIllegal s).data = s.data := rfl
@[simp] theorem completeIllegal_crc : (completeIllegal s).crc = s.crc := rfl
@[simp] theorem completeIllegal_ld : (completeIllegal s).ld = s.ld := rfl
@[simp] theorem completeIllegal_rom : (completeIllegal s).rom = s.rom := rfl
@[simp] theorem completeIllegal_dqDrive : (completeIllegal s).dqDrive = s.dqDrive := rfl
@[simp] theorem completeIllegal_trace : (completeIllegal s).trace = s.trace := rfl
@[simp] theorem completeIllegal_inst : (completeIllegal s).inst = s.inst := rfl
@[simp] theorem completeIllegal_host : (completeIllegal s).host = s.host := rfl
@[simp] theorem completeIllegal_schedule : (completeIllegal s).schedule = s.schedule := rfl
@[simp] theorem completeIllegal_reads : (completeIllegal s).reads = s.reads := rfl
@[simp] theorem completeIllegal_draws : (completeIllegal s).draws = s.draws := rfl

/-! ### setData -/

@[simp] theorem setData_cmd (v : Byte) : (setData v s).cmd = s.cmd := rfl
@[simp] theorem setData_arg (v : Byte) : (setData v s).arg = s.arg := rfl
@[simp] theorem setData_phase (v : Byte) : (setData v s).phase = s.phase := rfl
@[simp] theorem setData_lcmd (v : Byte) : (setData v s).lcmd = s.lcmd := rfl
@[simp] theorem setData_result (v : Byte) : (setData v s).result = s.result := rfl
@[simp] theorem setData_done (v : Byte) : (setData v s).done = s.done := rfl
@[simp] theorem setData_data (v : Byte) : (setData v s).data = v := rfl
@[simp] theorem setData_crc (v : Byte) : (setData v s).crc = s.crc := rfl
@[simp] theorem setData_ld (v : Byte) : (setData v s).ld = s.ld := rfl
@[simp] theorem setData_rom (v : Byte) : (setData v s).rom = s.rom := rfl
@[simp] theorem setData_dqDrive (v : Byte) : (setData v s).dqDrive = s.dqDrive := rfl
@[simp] theorem setData_trace (v : Byte) : (setData v s).trace = s.trace := rfl
@[simp] theorem setData_inst (v : Byte) : (setData v s).inst = s.inst := rfl
@[simp] theorem setData_host (v : Byte) : (setData v s).host = s.host := rfl
@[simp] theorem setData_schedule (v : Byte) : (setData v s).schedule = s.schedule := rfl
@[simp] theorem setData_reads (v : Byte) : (setData v s).reads = s.reads := rfl
@[simp] theorem setData_draws (v : Byte) : (setData v s).draws = s.draws := rfl

/-! ### setCrc -/

@[simp] theorem setCrc_cmd (v : Byte) : (setCrc v s).cmd = s.cmd := rfl
@[simp] theorem setCrc_arg (v : Byte) : (setCrc v s).arg = s.arg := rfl
@[simp] theorem setCrc_phase (v : Byte) : (setCrc v s).phase = s.phase := rfl
@[simp] theorem setCrc_lcmd (v : Byte) : (setCrc v s).lcmd = s.lcmd := rfl
@[simp] theorem setCrc_result (v : Byte) : (setCrc v s).result = s.result := rfl
@[simp] theorem setCrc_done (v : Byte) : (setCrc v s).done = s.done := rfl
@[simp] theorem setCrc_data (v : Byte) : (setCrc v s).data = s.data := rfl
@[simp] theorem setCrc_crc (v : Byte) : (setCrc v s).crc = v := rfl
@[simp] theorem setCrc_ld (v : Byte) : (setCrc v s).ld = s.ld := rfl
@[simp] theorem setCrc_rom (v : Byte) : (setCrc v s).rom = s.rom := rfl
@[simp] theorem setCrc_dqDrive (v : Byte) : (setCrc v s).dqDrive = s.dqDrive := rfl
@[simp] theorem setCrc_trace (v : Byte) : (setCrc v s).trace = s.trace := rfl
@[simp] theorem setCrc_inst (v : Byte) : (setCrc v s).inst = s.inst := rfl
@[simp] theorem setCrc_host (v : Byte) : (setCrc v s).host = s.host := rfl
@[simp] theorem setCrc_schedule (v : Byte) : (setCrc v s).schedule = s.schedule := rfl
@[simp] theorem setCrc_reads (v : Byte) : (setCrc v s).reads = s.reads := rfl
@[simp] theorem setCrc_draws (v : Byte) : (setCrc v s).draws = s.draws := rfl

/-! ### setLd -/

@[simp] theorem setLd_cmd (v : BitVec 7) : (setLd v s).cmd = s.cmd := rfl
@[simp] theorem setLd_arg (v : BitVec 7) : (setLd v s).arg = s.arg := rfl
@[simp] theorem setLd_phase (v : BitVec 7) : (setLd v s).phase = s.phase := rfl
@[simp] theorem setLd_lcmd (v : BitVec 7) : (setLd v s).lcmd = s.lcmd := rfl
@[simp] theorem setLd_result (v : BitVec 7) : (setLd v s).result = s.result := rfl
@[simp] theorem setLd_done (v : BitVec 7) : (setLd v s).done = s.done := rfl
@[simp] theorem setLd_data (v : BitVec 7) : (setLd v s).data = s.data := rfl
@[simp] theorem setLd_crc (v : BitVec 7) : (setLd v s).crc = s.crc := rfl
@[simp] theorem setLd_ld (v : BitVec 7) : (setLd v s).ld = v := rfl
@[simp] theorem setLd_rom (v : BitVec 7) : (setLd v s).rom = s.rom := rfl
@[simp] theorem setLd_dqDrive (v : BitVec 7) : (setLd v s).dqDrive = s.dqDrive := rfl
@[simp] theorem setLd_trace (v : BitVec 7) : (setLd v s).trace = s.trace := rfl
@[simp] theorem setLd_inst (v : BitVec 7) : (setLd v s).inst = s.inst := rfl
@[simp] theorem setLd_host (v : BitVec 7) : (setLd v s).host = s.host := rfl
@[simp] theorem setLd_schedule (v : BitVec 7) : (setLd v s).schedule = s.schedule := rfl
@[simp] theorem setLd_reads (v : BitVec 7) : (setLd v s).reads = s.reads := rfl
@[simp] theorem setLd_draws (v : BitVec 7) : (setLd v s).draws = s.draws := rfl

/-! ### setDone -/

@[simp] theorem setDone_cmd (v : Bool) : (setDone v s).cmd = s.cmd := rfl
@[simp] theorem setDone_arg (v : Bool) : (setDone v s).arg = s.arg := rfl
@[simp] theorem setDone_phase (v : Bool) : (setDone v s).phase = s.phase := rfl
@[simp] theorem setDone_lcmd (v : Bool) : (setDone v s).lcmd = s.lcmd := rfl
@[simp] theorem setDone_result (v : Bool) : (setDone v s).result = s.result := rfl
@[simp] theorem setDone_done (v : Bool) : (setDone v s).done = v := rfl
@[simp] theorem setDone_data (v : Bool) : (setDone v s).data = s.data := rfl
@[simp] theorem setDone_crc (v : Bool) : (setDone v s).crc = s.crc := rfl
@[simp] theorem setDone_ld (v : Bool) : (setDone v s).ld = s.ld := rfl
@[simp] theorem setDone_rom (v : Bool) : (setDone v s).rom = s.rom := rfl
@[simp] theorem setDone_dqDrive (v : Bool) : (setDone v s).dqDrive = s.dqDrive := rfl
@[simp] theorem setDone_trace (v : Bool) : (setDone v s).trace = s.trace := rfl
@[simp] theorem setDone_inst (v : Bool) : (setDone v s).inst = s.inst := rfl
@[simp] theorem setDone_host (v : Bool) : (setDone v s).host = s.host := rfl
@[simp] theorem setDone_schedule (v : Bool) : (setDone v s).schedule = s.schedule := rfl
@[simp] theorem setDone_reads (v : Bool) : (setDone v s).reads = s.reads := rfl
@[simp] theorem setDone_draws (v : Bool) : (setDone v s).draws = s.draws := rfl

/-! ### setRom -/

@[simp] theorem setRom_cmd (v : Vector Byte 8) : (setRom v s).cmd = s.cmd := rfl
@[simp] theorem setRom_arg (v : Vector Byte 8) : (setRom v s).arg = s.arg := rfl
@[simp] theorem setRom_phase (v : Vector Byte 8) : (setRom v s).phase = s.phase := rfl
@[simp] theorem setRom_lcmd (v : Vector Byte 8) : (setRom v s).lcmd = s.lcmd := rfl
@[simp] theorem setRom_result (v : Vector Byte 8) : (setRom v s).result = s.result := rfl
@[simp] theorem setRom_done (v : Vector Byte 8) : (setRom v s).done = s.done := rfl
@[simp] theorem setRom_data (v : Vector Byte 8) : (setRom v s).data = s.data := rfl
@[simp] theorem setRom_crc (v : Vector Byte 8) : (setRom v s).crc = s.crc := rfl
@[simp] theorem setRom_ld (v : Vector Byte 8) : (setRom v s).ld = s.ld := rfl
@[simp] theorem setRom_rom (v : Vector Byte 8) : (setRom v s).rom = v := rfl
@[simp] theorem setRom_dqDrive (v : Vector Byte 8) : (setRom v s).dqDrive = s.dqDrive := rfl
@[simp] theorem setRom_trace (v : Vector Byte 8) : (setRom v s).trace = s.trace := rfl
@[simp] theorem setRom_inst (v : Vector Byte 8) : (setRom v s).inst = s.inst := rfl
@[simp] theorem setRom_host (v : Vector Byte 8) : (setRom v s).host = s.host := rfl
@[simp] theorem setRom_schedule (v : Vector Byte 8) : (setRom v s).schedule = s.schedule := rfl
@[simp] theorem setRom_reads (v : Vector Byte 8) : (setRom v s).reads = s.reads := rfl
@[simp] theorem setRom_draws (v : Vector Byte 8) : (setRom v s).draws = s.draws := rfl

/-! ### driveLow -/

@[simp] theorem driveLow_cmd : (driveLow s).cmd = s.cmd := rfl
@[simp] theorem driveLow_arg : (driveLow s).arg = s.arg := rfl
@[simp] theorem driveLow_phase : (driveLow s).phase = s.phase := rfl
@[simp] theorem driveLow_lcmd : (driveLow s).lcmd = s.lcmd := rfl
@[simp] theorem driveLow_result : (driveLow s).result = s.result := rfl
@[simp] theorem driveLow_done : (driveLow s).done = s.done := rfl
@[simp] theorem driveLow_data : (driveLow s).data = s.data := rfl
@[simp] theorem driveLow_crc : (driveLow s).crc = s.crc := rfl
@[simp] theorem driveLow_ld : (driveLow s).ld = s.ld := rfl
@[simp] theorem driveLow_rom : (driveLow s).rom = s.rom := rfl
@[simp] theorem driveLow_dqDrive : (driveLow s).dqDrive = true := rfl
@[simp] theorem driveLow_trace : (driveLow s).trace = s.trace := rfl
@[simp] theorem driveLow_inst : (driveLow s).inst = s.inst := rfl
@[simp] theorem driveLow_host : (driveLow s).host = s.host := rfl
@[simp] theorem driveLow_schedule : (driveLow s).schedule = s.schedule := rfl
@[simp] theorem driveLow_reads : (driveLow s).reads = s.reads := rfl
@[simp] theorem driveLow_draws : (driveLow s).draws = s.draws := rfl

/-! ### releaseLine -/

@[simp] theorem releaseLine_cmd : (releaseLine s).cmd = s.cmd := rfl
@[simp] theorem releaseLine_arg : (releaseLine s).arg = s.arg := rfl
@[simp] theorem releaseLine_phase : (releaseLine s).phase = s.phase := rfl
@[simp] theorem releaseLine_lcmd : (releaseLine s).lcmd = s.lcmd := rfl
@[simp] theorem releaseLine_result : (releaseLine s).result = s.result := rfl
@[simp] theorem releaseLine_done : (releaseLine s).done = s.done := rfl
@[simp] theorem releaseLine_data : (releaseLine s).data = s.data := rfl
@[simp] theorem releaseLine_crc : (releaseLine s).crc = s.crc := rfl
@[simp] theorem releaseLine_ld : (releaseLine s).ld = s.ld := rfl
@[simp] theorem releaseLine_rom : (releaseLine s).rom = s.rom := rfl
@[simp] theorem releaseLine_dqDrive : (releaseLine s).dqDrive = false := rfl
@[simp] theorem releaseLine_trace : (releaseLine s).trace = s.trace := rfl
@[simp] theorem releaseLine_inst : (releaseLine s).inst = s.inst := rfl
@[simp] theorem releaseLine_host : (releaseLine s).host = s.host := rfl
@[simp] theorem releaseLine_schedule : (releaseLine s).schedule = s.schedule := rfl
@[simp] theorem releaseLine_reads : (releaseLine s).reads = s.reads := rfl
@[simp] theorem releaseLine_draws : (releaseLine s).draws = s.draws := rfl

/-! ### emit -/

@[simp] theorem emit_cmd (e : BusEvent) : (emit e s).cmd = s.cmd := rfl
@[simp] theorem emit_arg (e : BusEvent) : (emit e s).arg = s.arg := rfl
@[simp] theorem emit_phase (e : BusEvent) : (emit e s).phase = s.phase := rfl
@[simp] theorem emit_lcmd (e : BusEvent) : (emit e s).lcmd = s.lcmd := rfl
@[simp] theorem emit_result (e : BusEvent) : (emit e s).result = s.result := rfl
@[simp] theorem emit_done (e : BusEvent) : (emit e s).done = s.done := rfl
@[simp] theorem emit_data (e : BusEvent) : (emit e s).data = s.data := rfl
@[simp] theorem emit_crc (e : BusEvent) : (emit e s).crc = s.crc := rfl
@[simp] theorem emit_ld (e : BusEvent) : (emit e s).ld = s.ld := rfl
@[simp] theorem emit_rom (e : BusEvent) : (emit e s).rom = s.rom := rfl
@[simp] theorem emit_dqDrive (e : BusEvent) : (emit e s).dqDrive = s.dqDrive := rfl
@[simp] theorem emit_trace (e : BusEvent) : (emit e s).trace = s.trace ++ [e] := rfl
@[simp] theorem emit_inst (e : BusEvent) : (emit e s).inst = s.inst := rfl
@[simp] theorem emit_host (e : BusEvent) : (emit e s).host = s.host := rfl
@[simp] theorem emit_schedule (e : BusEvent) : (emit e s).schedule = s.schedule := rfl
@[simp] theorem emit_reads (e : BusEvent) : (emit e s).reads = s.reads := rfl
@[simp] theorem emit_draws (e : BusEvent) : (emit e s).draws = s.draws := rfl

/-! ### writeCmd -/

@[simp] theorem writeCmd_cmd (v : Byte) : (writeCmd v s).cmd = v := rfl
@[simp] theorem writeCmd_arg (v : Byte) : (writeCmd v s).arg = s.arg := rfl
@[simp] theorem writeCmd_phase (v : Byte) : (writeCmd v s).phase = .running := rfl
@[simp] theorem writeCmd_lcmd (v : Byte) : (writeCmd v s).lcmd = commandWord s.arg v := rfl
@[simp] theorem writeCmd_result (v : Byte) : (writeCmd v s).result = s.result := rfl
@[simp] theorem writeCmd_done (v : Byte) : (writeCmd v s).done = s.done := rfl
@[simp] theorem writeCmd_data (v : Byte) : (writeCmd v s).data = s.data := rfl
@[simp] theorem writeCmd_crc (v : Byte) : (writeCmd v s).crc = s.crc := rfl
@[simp] theorem writeCmd_ld (v : Byte) : (writeCmd v s).ld = s.ld := rfl
@[simp] theorem writeCmd_rom (v : Byte) : (writeCmd v s).rom = s.rom := rfl
@[simp] theorem writeCmd_dqDrive (v : Byte) : (writeCmd v s).dqDrive = s.dqDrive := rfl
@[simp] theorem writeCmd_trace (v : Byte) : (writeCmd v s).trace = s.trace := rfl
@[simp] theorem writeCmd_inst (v : Byte) : (writeCmd v s).inst = s.inst := rfl
@[simp] theorem writeCmd_host (v : Byte) : (writeCmd v s).host = s.host := rfl
@[simp] theorem writeCmd_schedule (v : Byte) : (writeCmd v s).schedule = s.schedule := rfl
@[simp] theorem writeCmd_reads (v : Byte) : (writeCmd v s).reads = s.reads := rfl
@[simp] theorem writeCmd_draws (v : Byte) : (writeCmd v s).draws = s.draws := rfl

/-! ### writeArg -/

@[simp] theorem writeArg_cmd (v : Byte) : (writeArg v s).cmd = s.cmd := rfl
@[simp] theorem writeArg_arg (v : Byte) : (writeArg v s).arg = v := rfl
@[simp] theorem writeArg_phase (v : Byte) : (writeArg v s).phase = s.phase := rfl
@[simp] theorem writeArg_lcmd (v : Byte) : (writeArg v s).lcmd = s.lcmd := rfl
@[simp] theorem writeArg_result (v : Byte) : (writeArg v s).result = s.result := rfl
@[simp] theorem writeArg_done (v : Byte) : (writeArg v s).done = s.done := rfl
@[simp] theorem writeArg_data (v : Byte) : (writeArg v s).data = s.data := rfl
@[simp] theorem writeArg_crc (v : Byte) : (writeArg v s).crc = s.crc := rfl
@[simp] theorem writeArg_ld (v : Byte) : (writeArg v s).ld = s.ld := rfl
@[simp] theorem writeArg_rom (v : Byte) : (writeArg v s).rom = s.rom := rfl
@[simp] theorem writeArg_dqDrive (v : Byte) : (writeArg v s).dqDrive = s.dqDrive := rfl
@[simp] theorem writeArg_trace (v : Byte) : (writeArg v s).trace = s.trace := rfl
@[simp] theorem writeArg_inst (v : Byte) : (writeArg v s).inst = s.inst := rfl
@[simp] theorem writeArg_host (v : Byte) : (writeArg v s).host = s.host := rfl
@[simp] theorem writeArg_schedule (v : Byte) : (writeArg v s).schedule = s.schedule := rfl
@[simp] theorem writeArg_reads (v : Byte) : (writeArg v s).reads = s.reads := rfl
@[simp] theorem writeArg_draws (v : Byte) : (writeArg v s).draws = s.draws := rfl

/-! ### deliverRead -/

@[simp] theorem deliverRead_cmd (n : Nat) : (deliverRead n s).cmd = s.cmd := rfl
@[simp] theorem deliverRead_arg (n : Nat) : (deliverRead n s).arg = s.arg := rfl
@[simp] theorem deliverRead_phase (n : Nat) : (deliverRead n s).phase = s.phase := rfl
@[simp] theorem deliverRead_lcmd (n : Nat) : (deliverRead n s).lcmd = s.lcmd := rfl
@[simp] theorem deliverRead_result (n : Nat) : (deliverRead n s).result = s.result := rfl
@[simp] theorem deliverRead_done (n : Nat) : (deliverRead n s).done = s.done := rfl
@[simp] theorem deliverRead_data (n : Nat) : (deliverRead n s).data = s.data := rfl
@[simp] theorem deliverRead_crc (n : Nat) : (deliverRead n s).crc = s.crc := rfl
@[simp] theorem deliverRead_ld (n : Nat) : (deliverRead n s).ld = s.ld := rfl
@[simp] theorem deliverRead_rom (n : Nat) : (deliverRead n s).rom = s.rom := rfl
@[simp] theorem deliverRead_dqDrive (n : Nat) : (deliverRead n s).dqDrive = s.dqDrive := rfl
@[simp] theorem deliverRead_trace (n : Nat) : (deliverRead n s).trace = s.trace := rfl
@[simp] theorem deliverRead_inst (n : Nat) : (deliverRead n s).inst = s.inst := rfl
@[simp] theorem deliverRead_host (n : Nat) : (deliverRead n s).host = s.host := rfl
@[simp] theorem deliverRead_schedule (n : Nat) : (deliverRead n s).schedule = s.schedule := rfl
@[simp] theorem deliverRead_reads (n : Nat) : (deliverRead n s).reads = s.reads ++ [readValue n s] := rfl
@[simp] theorem deliverRead_draws (n : Nat) : (deliverRead n s).draws = if s.busy then s.draws + 1 else s.draws := rfl

end Sys2Proof.Machine
end

