-- ==== Sys2Proof/Laws/Slots.lean ====
section
/-! SUPPORT. What each bus slot does, said once: the state after it, field by field. -/

namespace Sys2Proof.Machine

theorem slotReset_eq (o : Oracle) (s : State) :
    slotReset o s = ((o s.trace .presence, o s.trace .idle),
      { s with
        dqDrive := false
        trace := s.trace ++ [.rst (o s.trace .presence) (o s.trace .idle)] }) := rfl

theorem slotWrite_eq (b : Bool) (s : State) :
    slotWrite b s = { s with dqDrive := false, trace := s.trace ++ [.w b] } := rfl

theorem slotRead_eq (o : Oracle) (s : State) :
    slotRead o s = (o s.trace .read,
      { s with dqDrive := false, trace := s.trace ++ [.r (o s.trace .read)] }) := rfl

/-- Write slots change the line and the trace alone. -/
theorem writeBits_eq (bs : List Bool) (s : State) :
    writeBits bs s =
      { s with dqDrive := s.dqDrive && bs.isEmpty, trace := s.trace ++ bs.map BusEvent.w } := by
  induction bs generalizing s with
  | nil => simp [writeBits]
  | cons b bs ih => rw [writeBits, ih, slotWrite_eq]; simp

theorem writeByteSlots_eq (v : Byte) (s : State) :
    writeByteSlots v s =
      { s with dqDrive := false, trace := s.trace ++ (wireBits v).map BusEvent.w } := by
  have h : (wireBits v).isEmpty = false := rfl
  rw [writeByteSlots, writeBits_eq, h, Bool.and_false]

/-- The samples of `n` read slots that start at a trace. -/
def readSamples (o : Oracle) : Nat → List BusEvent → List Bool
  | 0, _ => []
  | n + 1, t => o t .read :: readSamples o n (t ++ [.r (o t .read)])

@[simp] theorem readSamples_length (o : Oracle) (n : Nat) (t : List BusEvent) :
    (readSamples o n t).length = n := by
  induction n generalizing t with
  | zero => rfl
  | succ n ih => simp [readSamples, ih]

/-- Each sample is what the BUS answers to the trace up to it. -/
theorem readSamples_getElem (o : Oracle) (n : Nat) (t : List BusEvent) (i : Nat)
    (h : i < (readSamples o n t).length) :
    (readSamples o n t)[i] = o (t ++ ((readSamples o n t).take i).map BusEvent.r) .read := by
  induction n generalizing t i with
  | zero => simp [readSamples] at h
  | succ n ih =>
    cases i with
    | zero => simp [readSamples]
    | succ i =>
      simp only [readSamples, List.getElem_cons_succ, List.take_succ_cons, List.map_cons]
      rw [ih]
      simp

/-- Read slots change the line and the trace alone. -/
theorem readBits_state (o : Oracle) (n i : Nat) (r : Byte) (s : State) :
    (readBits o n i r s).2 =
      { s with
        dqDrive := s.dqDrive && decide (n = 0)
        trace := s.trace ++ (readSamples o n s.trace).map BusEvent.r } := by
  induction n generalizing i r s with
  | zero => simp [readBits, readSamples]
  | succ n ih => rw [readBits, ih, slotRead_eq]; simp [readSamples]

/-- Bit j of the byte read is the sample of slot j - i, and the bits outside the slots' positions stand. -/
theorem readBits_getLsbD (o : Oracle) (n i : Nat) (r : Byte) (s : State) (h : i + n ≤ 8) (j : Nat) :
    (readBits o n i r s).1.getLsbD j =
      if i ≤ j ∧ j < i + n then ((readSamples o n s.trace)[j - i]?).getD false else r.getLsbD j := by
  induction n generalizing i r s with
  | zero =>
    rw [readBits, if_neg (by omega)]
  | succ n ih =>
    rw [readBits, ih _ _ _ (by omega), getLsbD_setBit _ _ _ _ (by omega), slotRead_eq]
    by_cases h1 : i + 1 ≤ j ∧ j < i + 1 + n
    · rw [if_pos h1, if_pos (by omega), show j - i = (j - (i + 1)) + 1 by omega]
      simp [readSamples]
    · rw [if_neg h1]
      by_cases h2 : j = i
      · subst h2; simp [readSamples]
      · rw [if_neg h2, if_neg (by omega)]

end Sys2Proof.Machine
end

