-- ==== Sys2Proof/Laws/Search.lean ====
section
/-! SUPPORT. What one address bit of a search walk does and what the whole walk does, in the terms of
SearchSpec (43_romsearch.md R173 to R184). -/

namespace Sys2Proof.Machine

/-- The walk's counters stand at bit k: byte_index and bit_mask track bit_index (43_romsearch.md R178). -/
structure Walk.At (w : Walk) (k : Nat) : Prop where
  bitIndex : w.bitIndex = k
  byteIndex : w.byteIndex = (k - 1) / 8
  bitMask : w.bitMask = 0x01#8 <<< ((k - 1) % 8)

theorem startWalk_at (s : State) : (startWalk s).At 1 := ⟨rfl, rfl, rfl⟩

/-- The mask's test reads the stored address bit. -/
theorem Walk.At.storedBit {w : Walk} {k : Nat} (h : w.At k) : w.storedBit = romBit w.st.rom k := by
  have key : ∀ (b : Byte) (i : Fin 8), (decide ((b &&& (0x01#8 <<< i.val)) ≠ 0x00#8)) = b.getLsbD i.val := by
    intro b i
    have hone : ∀ j, ((0x01#8 : Byte) <<< i.val).getLsbD j = decide (j = i.val) := by
      intro j
      have := getLsbD_setBit 0x00#8 i.val j true i.isLt
      unfold setBit at this
      rw [if_pos rfl] at this
      simp only [BitVec.zero_or] at this
      rw [this]
      by_cases hj : j = i.val <;> simp [hj]
    by_cases hb : b.getLsbD i.val
    · rw [hb, decide_eq_true_eq]
      intro h0
      have := congrArg (fun x : Byte => x.getLsbD i.val) h0
      simp only [BitVec.getLsbD_and, hone, hb] at this
      simp at this
    · rw [Bool.not_eq_true] at hb
      rw [hb, decide_eq_false_iff_not, not_not]
      apply BitVec.eq_of_getLsbD_eq
      intro j _
      rw [BitVec.getLsbD_and, hone]
      by_cases hj : j = i.val
      · subst hj; rw [hb]; simp
      · simp [hj]
  unfold Walk.storedBit romBit
  rw [h.byteIndex, h.bitMask]
  exact key _ ⟨(k - 1) % 8, Nat.mod_lt _ (by omega)⟩

/-- The counters move on by one bit, and CRC takes in a completed byte (43_romsearch.md R178, R181). -/
theorem Walk.At.advance {w : Walk} {k : Nat} (h : w.At k) (hk : 1 ≤ k) (m : Nat) (s : State) :
    (w.advance m s).At (k + 1) ∧ (w.advance m s).marker = m ∧
      (w.advance m s).st =
        if k % 8 = 0 then setCrc (crcUpdate s.crc (romByte s.rom (k / 8 - 1))) s else s := by
  have hmask : ∀ i : Fin 8, ((0x01#8 <<< i.val) <<< 1 = 0x00#8 ↔ i.val = 7) ∧
      (i.val ≠ 7 → (0x01#8 : Byte) <<< i.val <<< 1 = 0x01#8 <<< (i.val + 1)) := by decide
  have hm := hmask ⟨(k - 1) % 8, Nat.mod_lt _ (by omega)⟩
  unfold Walk.advance
  rw [h.bitMask]
  by_cases h7 : (k - 1) % 8 = 7
  · rw [if_pos (hm.1.2 h7)]
    refine ⟨⟨?_, ?_, ?_⟩, rfl, ?_⟩
    · simp [h.bitIndex]
    · simp only [h.byteIndex]; omega
    · have : (k + 1 - 1) % 8 = 0 := by omega
      rw [this]; rfl
    · rw [if_pos (by omega), h.byteIndex, show (k - 1) / 8 = k / 8 - 1 by omega]
  · rw [if_neg (fun hh => h7 (hm.1.1 hh))]
    refine ⟨⟨?_, ?_, ?_⟩, rfl, ?_⟩
    · simp [h.bitIndex]
    · simp only [h.byteIndex]; omega
    · have h2 := hm.2 h7
      simp only at h2
      rw [show (k + 1 - 1) % 8 = (k - 1) % 8 + 1 by omega, ← h2]
    · rw [if_neg (by omega)]

/-- One address bit at k: the two answers, the abort on (1,1) (43_romsearch.md R182), or the branch, the marker,
the store, the write slot and the fold of a completed byte (R173, R174, R179 to R181). -/
theorem searchBit_spec (o : Oracle) (w : Walk) (k : Nat) (h : w.At k) (hk : 1 ≤ k) :
    let idB := o w.st.trace .read
    let cmpB := o (w.st.trace ++ [.r idB]) .read
    let d := chooseDir idB cmpB (romBit w.st.rom k) k w.st.ld.toNat
    let rom' := storeBit w.st.rom k d
    if idB = true ∧ cmpB = true then
      searchBit o w = .aborted { w.st with dqDrive := false, trace := w.st.trace ++ [.r idB, .r cmpB] }
    else
      ∃ w', searchBit o w = .walking w' ∧ w'.At (k + 1) ∧ w'.marker = nextMarker idB cmpB d k w.marker ∧
        w'.st = { w.st with
          dqDrive := false
          trace := w.st.trace ++ [.r idB, .r cmpB, .w d]
          rom := rom'
          crc := if k % 8 = 0 then crcUpdate w.st.crc (romByte rom' (k / 8 - 1)) else w.st.crc } := by
  intro idB cmpB d rom'
  have hs : searchBit o w =
      if idB = true ∧ cmpB = true then
        .aborted { w.st with dqDrive := false, trace := w.st.trace ++ [.r idB] ++ [.r cmpB] }
      else .walking (w.advance (nextMarker idB cmpB (chooseDir idB cmpB w.storedBit w.bitIndex w.st.ld.toNat)
          w.bitIndex w.marker)
        { w.st with
          dqDrive := false
          trace := w.st.trace ++ [.r idB] ++ [.r cmpB] ++
            [.w (chooseDir idB cmpB w.storedBit w.bitIndex w.st.ld.toNat)]
          rom := romSetByte w.st.rom w.byteIndex
            (if chooseDir idB cmpB w.storedBit w.bitIndex w.st.ld.toNat
              then romByte w.st.rom w.byteIndex ||| w.bitMask
              else romByte w.st.rom w.byteIndex &&& ~~~w.bitMask) }) := by
    simp only [searchBit, slotRead_eq, slotWrite_eq, storeDir, setRom, idB, cmpB]
    rfl
  rw [h.storedBit, h.bitIndex] at hs
  by_cases hab : idB = true ∧ cmpB = true
  · rw [if_pos hab] at hs ⊢
    rw [hs, List.append_assoc]; rfl
  · rw [if_neg hab] at hs ⊢
    refine ⟨_, hs, ?_⟩
    obtain ⟨h1, h2, h3⟩ := h.advance hk (nextMarker idB cmpB d k w.marker)
      { w.st with
          dqDrive := false
          trace := w.st.trace ++ [.r idB] ++ [.r cmpB] ++ [.w d]
          rom := romSetByte w.st.rom w.byteIndex
            (if d then romByte w.st.rom w.byteIndex ||| w.bitMask
              else romByte w.st.rom w.byteIndex &&& ~~~w.bitMask) }
    refine ⟨h1, h2, h3.trans ?_⟩
    have hrom : romSetByte w.st.rom w.byteIndex
        (if d then romByte w.st.rom w.byteIndex ||| w.bitMask
          else romByte w.st.rom w.byteIndex &&& ~~~w.bitMask) = rom' := by
      rw [h.byteIndex, h.bitMask]; rfl
    rw [hrom]
    by_cases h8 : k % 8 = 0
    · rw [if_pos h8, if_pos h8]
      simp [setCrc, List.append_assoc]
    · rw [if_neg h8, if_neg h8]
      simp [List.append_assoc]

/-- What holds of a walk that has completed k bits of the pass that starts in `s`. -/
structure Walk.Follows (w : Walk) (o : Oracle) (s : State) (k : Nat) : Prop where
  at_ : w.At (k + 1)
  trace : w.st.trace = SearchSpec.traceAfter o s k
  marker : w.marker = SearchSpec.marker o s k
  stored : ∀ j, 1 ≤ j → j ≤ 64 →
    romBit w.st.rom j = if j ≤ k then SearchSpec.dir o s j else romBit s.rom j
  crc : w.st.crc = crc8 0x00#8 (w.st.rom.toList.take (k / 8))
  rest : w.st = { s with dqDrive := false, trace := w.st.trace, rom := w.st.rom, crc := w.st.crc }

/-- The walk starts right after the SearchROM byte (43_romsearch.md R176, R177). -/
theorem startWalk_follows (o : Oracle) (s s' : State)
    (hs : s' = { s with dqDrive := false, trace := s.trace ++ [.rst false true] }) :
    (startWalk (writeByteSlots searchRom s')).Follows o s 0 := by
  subst hs
  rw [writeByteSlots_eq]
  refine ⟨startWalk_at _, rfl, rfl, ?_, rfl, rfl⟩
  intro j h1 _
  rw [if_neg (by omega)]; rfl

theorem crc8_append (c : Byte) (xs ys : List Byte) : crc8 c (xs ++ ys) = crc8 (crc8 c xs) ys := by
  simp [crc8, List.foldl_append]

/-- One more bit of a walk that follows the spec: it stops on (1,1), or follows the spec one bit further. -/
theorem searchBit_follows (o : Oracle) (s : State) (w : Walk) (k : Nat) (h : w.Follows o s k) (hk : k < 64) :
    if SearchSpec.stops o s (k + 1) = true then
      searchBit o w = .aborted { w.st with trace := w.st.trace ++ [.r true, .r true] }
    else ∃ w', searchBit o w = .walking w' ∧ w'.Follows o s (k + 1) := by
  have spec := searchBit_spec o w (k + 1) h.at_ (by omega)
  have hid : o w.st.trace .read = SearchSpec.idBit o s (k + 1) := by
    rw [h.trace]; rfl
  have hcmp : o (w.st.trace ++ [.r (SearchSpec.idBit o s (k + 1))]) .read = SearchSpec.cmpBit o s (k + 1) := by
    rw [h.trace]; rfl
  have hld : w.st.ld = s.ld := by rw [h.rest]
  have hold : romBit w.st.rom (k + 1) = romBit s.rom (k + 1) := by
    rw [h.stored _ (by omega) (by omega), if_neg (by omega)]
  have hdir : chooseDir (SearchSpec.idBit o s (k + 1)) (SearchSpec.cmpBit o s (k + 1))
      (romBit w.st.rom (k + 1)) (k + 1) w.st.ld.toNat = SearchSpec.dir o s (k + 1) := by
    rw [hold, hld]; rfl
  have hdq : w.st.dqDrive = false := by rw [h.rest]
  simp only [hid, hcmp, hdir] at spec
  have hstops : SearchSpec.stops o s (k + 1) = true ↔
      (SearchSpec.idBit o s (k + 1) = true ∧ SearchSpec.cmpBit o s (k + 1) = true) := by
    simp [SearchSpec.stops]
  by_cases hst : SearchSpec.stops o s (k + 1) = true
  · rw [if_pos (hstops.1 hst)] at spec
    rw [if_pos hst, spec, (hstops.1 hst).1, (hstops.1 hst).2]
    simp [← hdq]
  · rw [if_neg (fun hh => hst (hstops.2 hh))] at spec
    rw [if_neg hst]
    obtain ⟨w', hw, hat, hmk, hstate⟩ := spec
    have htr : w'.st.trace = SearchSpec.traceAfter o s (k + 1) := by
      rw [hstate, h.trace]; rfl
    have hrom : w'.st.rom = storeBit w.st.rom (k + 1) (SearchSpec.dir o s (k + 1)) := by rw [hstate]
    have hstored : ∀ j, 1 ≤ j → j ≤ 64 →
        romBit w'.st.rom j = if j ≤ k + 1 then SearchSpec.dir o s j else romBit s.rom j := by
      intro j h1 h2
      rw [hrom, romBit_storeBit _ _ _ _ (by omega) (by omega) h1]
      by_cases hj : j = k + 1
      · subst hj; simp
      · rw [if_neg hj, h.stored j h1 h2]
        by_cases hjk : j ≤ k
        · rw [if_pos hjk, if_pos (by omega)]
        · rw [if_neg hjk, if_neg (by omega)]
    refine ⟨w', hw, hat, htr, ?_, hstored, ?_, ?_⟩
    · rw [hmk, h.marker, SearchSpec.marker]
      unfold nextMarker SearchSpec.zeroBranch
      by_cases hz : SearchSpec.idBit o s (k + 1) = SearchSpec.cmpBit o s (k + 1) ∧
          SearchSpec.dir o s (k + 1) = false
      · rw [if_pos hz, if_pos (by simp [hz.1, hz.2])]
      · rw [if_neg hz, if_neg (fun hh => hz (by simpa using hh))]
    · have hcrc : w'.st.crc = if (k + 1) % 8 = 0 then
          crcUpdate w.st.crc (romByte w'.st.rom ((k + 1) / 8 - 1)) else w.st.crc := by
        rw [hrom, hstate]
      have hpre : ∀ n, 8 * n ≤ k → n ≤ 8 → w.st.rom.toList.take n = w'.st.rom.toList.take n := by
        intro n hn hn8
        apply rom_take_ext _ _ _ hn8
        intro j h1 h2
        rw [hstored j h1 (by omega), h.stored j h1 (by omega), if_pos (by omega), if_pos (by omega)]
      by_cases h8 : (k + 1) % 8 = 0
      · rw [hcrc, if_pos h8, h.crc, hpre (k / 8) (by omega) (by omega),
          show (k + 1) / 8 - 1 = k / 8 by omega, show (k + 1) / 8 = k / 8 + 1 by omega,
          rom_take_succ _ _ (by omega), crc8_append]
        rfl
      · rw [hcrc, if_neg h8, h.crc, show (k + 1) / 8 = k / 8 by omega, hpre (k / 8) (by omega) (by omega)]
    · rw [hstate, h.rest]

/-- The rest of a walk that follows the spec: it stops at a (1,1) pair after n completed bits, or walks all. -/
theorem searchBits_follows (o : Oracle) (s : State) (m : Nat) (w : Walk) (k : Nat) (h : w.Follows o s k)
    (hk : k + m = 64) :
    ∃ n, k ≤ n ∧ n ≤ 64 ∧ (∀ j, k < j → j ≤ n → SearchSpec.stops o s j = false) ∧
      ∃ w' : Walk, w'.Follows o s n ∧
        ((n < 64 ∧ SearchSpec.stops o s (n + 1) = true ∧
            searchBits o m w = .aborted { w'.st with trace := w'.st.trace ++ [.r true, .r true] }) ∨
          (n = 64 ∧ searchBits o m w = .walking w')) := by
  induction m generalizing w k with
  | zero => exact ⟨64, by omega, le_refl _, fun j h1 h2 => by omega, w, by simpa [show k = 64 by omega] using h,
      .inr ⟨rfl, rfl⟩⟩
  | succ m ih =>
    have step := searchBit_follows o s w k h (by omega)
    by_cases hst : SearchSpec.stops o s (k + 1) = true
    · rw [if_pos hst] at step
      refine ⟨k, le_refl _, by omega, fun j h1 h2 => by omega, w, h, .inl ⟨by omega, hst, ?_⟩⟩
      rw [searchBits, step]
    · rw [if_neg hst] at step
      obtain ⟨w1, hw1, hf⟩ := step
      obtain ⟨n, h1, h2, h3, w', hw', hend⟩ := ih w1 (k + 1) hf (by omega)
      refine ⟨n, by omega, h2, ?_, w', hw', ?_⟩
      · intro j hj1 hj2
        by_cases hj : j = k + 1
        · subst hj; simpa using hst
        · exact h3 j (by omega) hj2
      · rw [searchBits, hw1]
        exact hend

/-- OW_SNEXT on its three ways: done, a reset slot that is not PRESENCE, and the pass (43_romsearch.md R175,
R185, R186). -/
theorem owSnext_eq (o : Oracle) (s : State) :
    owSnext o s =
      if s.done = true then complete .notFound s
      else if resetOutcome (o s.trace .presence) (o s.trace .idle) ≠ .presence then
        complete .notFound { s with
          dqDrive := false
          trace := s.trace ++ [.rst (o s.trace .presence) (o s.trace .idle)] }
      else searchPass o { s with
          dqDrive := false
          trace := s.trace ++ [.rst (o s.trace .presence) (o s.trace .idle)] } := rfl

/-- The reset slot's classification is PRESENCE exactly for p = 0 with idle = 1 (40_buslink.md R107). -/
theorem resetOutcome_eq_presence (p idle : Bool) :
    resetOutcome p idle = .presence ↔ (p = false ∧ idle = true) := by
  cases p <;> cases idle <;> decide

theorem marker_le (o : Oracle) (s : State) (k : Nat) : SearchSpec.marker o s k ≤ k := by
  induction k with
  | zero => exact le_refl _
  | succ k ih =>
    rw [SearchSpec.marker]
    split <;> omega

end Sys2Proof.Machine
end

