-- ==== Sys2Proof/Laws/RefBus.lean ====
section
/-! SUPPORT. What a search pass meets on the reference bus: what each device is doing after every address bit, and
so the two answers and the branch at each bit (95_test_vectors.md §1, 43_romsearch.md R173); and the order of the
RomIds (R190). -/

namespace Sys2Proof.RefBus

open Sys2Proof.Machine

/-- `d` leaves the bit string of `b` upwards at bit k. -/
def Up (b : Vector Byte 8) (k : Nat) (d : Vector Byte 8) : Prop :=
  (∀ j, 1 ≤ j → j < k → romBit d j = romBit b j) ∧ romBit b k = false ∧ romBit d k = true

theorem before_iff_lt {a b : Vector Byte 8} : before a b = true ↔ bitString a < bitString b := by
  simp [before]

theorem before_trans {a b c : Vector Byte 8} (h : before a b = true) (h' : before b c = true) :
    before a c = true := by
  rw [before_iff_lt] at *
  exact lt_trans h h'

theorem before_irrefl (a : Vector Byte 8) : ¬ before a a = true := by
  rw [before_iff_lt]
  exact lt_irrefl _

theorem bitString_length (id : Vector Byte 8) : (bitString id).length = 64 := by simp [bitString]

theorem bitString_getElem (id : Vector Byte 8) (i : Nat) (h : i < (bitString id).length) :
    (bitString id)[i] = romBit id (i + 1) := by simp [bitString]

/-- One RomId comes before another exactly where the other leaves it upwards. -/
theorem before_iff_up (b d : Vector Byte 8) : before b d = true ↔ ∃ k, 1 ≤ k ∧ k ≤ 64 ∧ Up b k d := by
  rw [before_iff_lt, List.lt_iff_exists]
  constructor
  · rintro (⟨_, h⟩ | ⟨i, h1, h2, h3, h4⟩)
    · rw [bitString_length, bitString_length] at h
      omega
    · rw [bitString_length] at h1
      rw [bitString_getElem, bitString_getElem, Bool.lt_iff] at h4
      refine ⟨i + 1, by omega, by omega, fun j hj hj' => ?_, h4⟩
      have hb := h3 (j - 1) (by omega)
      rw [bitString_getElem, bitString_getElem, show j - 1 + 1 = j by omega] at hb
      exact hb.symm
  · rintro ⟨k, h1, h2, h3, h4⟩
    refine .inr ⟨k - 1, by rw [bitString_length]; omega, by rw [bitString_length]; omega, fun j hj => ?_, ?_⟩
    · rw [bitString_getElem, bitString_getElem]
      exact (h3 (j + 1) (by omega) (by omega)).symm
    · rw [bitString_getElem, bitString_getElem, Bool.lt_iff, show k - 1 + 1 = k by omega]
      exact h4

/-- Two different RomIds have a first bit in which they differ. -/
theorem first_difference {a b : Vector Byte 8} (h : a ≠ b) :
    ∃ k, 1 ≤ k ∧ k ≤ 64 ∧ (∀ j, 1 ≤ j → j < k → romBit a j = romBit b j) ∧ romBit a k ≠ romBit b k := by
  classical
  have hex : ∃ k, 1 ≤ k ∧ k ≤ 64 ∧ romBit a k ≠ romBit b k := by
    by_contra hn
    exact h (rom_ext _ _ fun k h1 h2 => not_not.1 fun hne => hn ⟨k, h1, h2, hne⟩)
  obtain ⟨h1, h2, h3⟩ := Nat.find_spec hex
  exact ⟨Nat.find hex, h1, h2,
    fun j hj hjk => not_not.1 fun hne => Nat.find_min hex hjk ⟨hj, by omega, hne⟩, h3⟩

theorem next_rst (id : Vector Byte 8) (m : Mode) (p idle : Bool) : m.next id (.rst p idle) = .command [] := by
  cases m <;> rfl

theorem modeAfter_append (id : Vector Byte 8) (t es : List BusEvent) :
    modeAfter id (t ++ es) = es.foldl (Mode.next id) (modeAfter id t) := by
  simp [modeAfter, List.foldl_append]

/-- Every device is in search mode at bit 1 after the reset slot and the SearchROM byte. -/
theorem modeAfter_start (id : Vector Byte 8) (s : State) : modeAfter id (SearchSpec.start s) = .searchId 1 := by
  unfold SearchSpec.start
  rw [modeAfter_append, modeAfter_append]
  simp only [List.foldl_cons, List.foldl_nil, next_rst]
  rfl

/-- The first k bits of `id` are the branches the pass took. -/
def OnPath (o : Oracle) (s : State) (k : Nat) (id : Vector Byte 8) : Prop :=
  ∀ j, 1 ≤ j → j ≤ k → romBit id j = SearchSpec.dir o s j

theorem OnPath.succ {o : Oracle} {s : State} {k : Nat} {id : Vector Byte 8} (h : OnPath o s k id)
    (hk : romBit id (k + 1) = SearchSpec.dir o s (k + 1)) : OnPath o s (k + 1) id := by
  intro j h1 h2
  by_cases hj : j = k + 1
  · subst hj; exact hk
  · exact h j h1 (by omega)

/-- After k bits the devices on the path are in search mode at bit k + 1 and every other one is silent. -/
theorem modeAfter_traceAfter (id : Vector Byte 8) (o : Oracle) (s : State) (k : Nat) (hk : k < 64) :
    (OnPath o s k id → modeAfter id (SearchSpec.traceAfter o s k) = .searchId (k + 1)) ∧
    (¬ OnPath o s k id → modeAfter id (SearchSpec.traceAfter o s k) = .silent) := by
  induction k with
  | zero => exact ⟨fun _ => modeAfter_start id s, fun h => absurd (fun j h1 h2 => by omega) h⟩
  | succ k ih =>
    obtain ⟨h1, h2⟩ := ih (by omega)
    have htr : SearchSpec.traceAfter o s (k + 1) = SearchSpec.traceAfter o s k ++
      [.r (SearchSpec.idBit o s (k + 1)), .r (SearchSpec.cmpBit o s (k + 1)),
        .w (SearchSpec.dir o s (k + 1))] := rfl
    rw [htr, modeAfter_append]
    by_cases hp : OnPath o s k id
    · rw [h1 hp]
      simp only [List.foldl_cons, List.foldl_nil, Mode.next]
      constructor
      · intro h
        rw [if_pos ⟨(h (k + 1) (by omega) (by omega)).symm, hk⟩]
      · intro h
        rw [if_neg]
        rintro ⟨he, _⟩
        exact h (hp.succ he.symm)
    · rw [h2 hp]
      exact ⟨fun h => absurd (fun j hj hj' => h j hj (by omega)) hp, fun _ => rfl⟩

/-- The first answer at bit k is 1 exactly when every device on the path has a 1 there. -/
theorem idBit_iff (D : List (Vector Byte 8)) (s : State) (k : Nat) (h1 : 1 ≤ k) (h2 : k ≤ 64) :
    SearchSpec.idBit (searchBus D) s k = true ↔
      ∀ id ∈ D, OnPath (searchBus D) s (k - 1) id → romBit id k = true := by
  show (D.all fun id => (modeAfter id _).drives id) = true ↔ _
  rw [List.all_eq_true]
  refine forall_congr' fun id => forall_congr' fun _ => ?_
  obtain ⟨m1, m2⟩ := modeAfter_traceAfter id (searchBus D) s (k - 1) (by omega)
  rw [show k - 1 + 1 = k by omega] at m1
  by_cases hp : OnPath (searchBus D) s (k - 1) id
  · rw [m1 hp]; simp [Mode.drives, hp]
  · rw [m2 hp]; simp [Mode.drives, hp]

/-- The second answer at bit k is 1 exactly when every device on the path has a 0 there. -/
theorem cmpBit_iff (D : List (Vector Byte 8)) (s : State) (k : Nat) (h1 : 1 ≤ k) (h2 : k ≤ 64) :
    SearchSpec.cmpBit (searchBus D) s k = true ↔
      ∀ id ∈ D, OnPath (searchBus D) s (k - 1) id → romBit id k = false := by
  show (D.all fun id => (modeAfter id _).drives id) = true ↔ _
  rw [List.all_eq_true]
  refine forall_congr' fun id => forall_congr' fun _ => ?_
  obtain ⟨m1, m2⟩ := modeAfter_traceAfter id (searchBus D) s (k - 1) (by omega)
  rw [show k - 1 + 1 = k by omega] at m1
  rw [modeAfter_append]
  by_cases hp : OnPath (searchBus D) s (k - 1) id
  · rw [m1 hp]; simp [Mode.drives, Mode.next, hp]
  · rw [m2 hp]; simp [Mode.drives, Mode.next, hp]

/-- With a device on the path, bit k does not stop the pass: the devices on the path agree and the branch is their
bit, or they collide and the branch is the stored bit below LD, 1 at LD and 0 beyond (43_romsearch.md R173,
R174). -/
theorem dir_cases (D : List (Vector Byte 8)) (s : State) (k : Nat) (h1 : 1 ≤ k) (h2 : k ≤ 64)
    (e : Vector Byte 8) (he : e ∈ D) (hp : OnPath (searchBus D) s (k - 1) e) :
    SearchSpec.stops (searchBus D) s k = false ∧
    ((∀ d ∈ D, OnPath (searchBus D) s (k - 1) d → romBit d k = SearchSpec.dir (searchBus D) s k) ∧
        SearchSpec.zeroBranch (searchBus D) s k = false ∨
      (∃ d ∈ D, OnPath (searchBus D) s (k - 1) d ∧ romBit d k = true) ∧
      (∃ d ∈ D, OnPath (searchBus D) s (k - 1) d ∧ romBit d k = false) ∧
      SearchSpec.dir (searchBus D) s k =
        (if k < s.ld.toNat then romBit s.rom k else decide (k = s.ld.toNat)) ∧
      SearchSpec.zeroBranch (searchBus D) s k = !SearchSpec.dir (searchBus D) s k) := by
  have hi := idBit_iff D s k h1 h2
  have hc := cmpBit_iff D s k h1 h2
  unfold SearchSpec.zeroBranch SearchSpec.stops
  rw [SearchSpec.dir, SearchSpec.branch]
  by_cases hi1 : SearchSpec.idBit (searchBus D) s k = true
  · have hi2 := hi.1 hi1
    have hc1 : SearchSpec.cmpBit (searchBus D) s k = false := by
      rw [← Bool.not_eq_true, hc]
      intro h
      have := h e he hp
      rw [hi2 e he hp] at this
      cases this
    rw [hi1, hc1]
    exact ⟨rfl, .inl ⟨hi2, rfl⟩⟩
  · by_cases hc1 : SearchSpec.cmpBit (searchBus D) s k = true
    · have hc2 := hc.1 hc1
      rw [Bool.not_eq_true] at hi1
      rw [hi1, hc1]
      exact ⟨rfl, .inl ⟨hc2, rfl⟩⟩
    · have hi0 : SearchSpec.idBit (searchBus D) s k = false := by rwa [← Bool.not_eq_true]
      have hc0 : SearchSpec.cmpBit (searchBus D) s k = false := by rwa [← Bool.not_eq_true]
      rw [hi] at hi1
      rw [hc] at hc1
      push Not at hi1 hc1
      rw [hi0, hc0]
      obtain ⟨x, x1, x2, x3⟩ := hi1
      obtain ⟨y, y1, y2, y3⟩ := hc1
      exact ⟨rfl, .inr ⟨⟨y, y1, y2, by simpa using y3⟩, ⟨x, x1, x2, by simpa using x3⟩, by simp, by simp⟩⟩

/-- On a bus with a device, some device stays on the path to the end. -/
theorem exists_onPath (D : List (Vector Byte 8)) (s : State) (hD : D ≠ []) (k : Nat) (hk : k ≤ 64) :
    ∃ b ∈ D, OnPath (searchBus D) s k b := by
  induction k with
  | zero =>
    obtain ⟨b, hb⟩ := List.exists_mem_of_ne_nil D hD
    exact ⟨b, hb, fun j h1 h2 => by omega⟩
  | succ k ih =>
    obtain ⟨b, hb, hp⟩ := ih (by omega)
    rcases dir_cases D s (k + 1) (by omega) hk b hb hp with ⟨_, h | h⟩
    · exact ⟨b, hb, hp.succ (h.1 b hb hp)⟩
    · obtain ⟨⟨x, x1, x2, x3⟩, ⟨y, y1, y2, y3⟩, _, _⟩ := h
      by_cases hd : SearchSpec.dir (searchBus D) s (k + 1) = true
      · exact ⟨x, x1, OnPath.succ x2 (x3.trans hd.symm)⟩
      · rw [Bool.not_eq_true] at hd
        exact ⟨y, y1, OnPath.succ y2 (y3.trans hd.symm)⟩

end Sys2Proof.RefBus
end

