-- ==== Sys2Proof/Laws/Step.lean ====
section
/-! SUPPORT. Which agent a step is the move of, and what each HOST operation does, said once. -/

namespace Sys2Proof.Machine

theorem busy_of_running {s : State} (h : s.phase = .running) : s.busy = true := by simp [State.busy, h]

theorem busy_of_idle {s : State} (h : s.phase = .idle) : s.busy = false := by simp [State.busy, h]

/-- With no turn scheduled and the ENGINE IDLE, a step is the HOST's turn. -/
theorem step_idle {s : State} (hp : s.phase = .idle) (hs : s.schedule = []) : step s = hostTurn s := by
  simp [step, moveNext, hs, busy_of_idle hp]

/-- With no turn scheduled and a command running, a step is the ENGINE's completion step. -/
theorem step_running {s : State} (hp : s.phase = .running) (hs : s.schedule = []) :
    step s = engineStep s := by
  simp [step, moveNext, hs, busy_of_running hp, engineTurn]

/-- With a turn scheduled, a step takes it off the schedule and is that turn. -/
theorem step_scheduled {s : State} {t : Turn} {turns : List Turn} (hs : s.schedule = t :: turns) :
    step s = takeTurn t { s with schedule := turns } := by
  simp [step, moveNext, hs]

/-- When the HOST moves next, a step is its turn. -/
theorem step_hostMoves {s : State} {turns : List Turn} (h : HostMoves s turns) :
    step s = hostTurn { s with schedule := turns } := by
  rcases h with h | ⟨h, rfl, hp⟩
  · exact step_scheduled h
  · rw [step_idle hp h, ← h]

/-- When the ENGINE moves next while a command runs, a step is its completion step. -/
theorem step_engineMoves {s : State} {turns : List Turn} (h : EngineMoves s turns) :
    step s = engineStep { s with schedule := turns } := by
  obtain ⟨hp, h | ⟨h, rfl⟩⟩ := h
  · rw [step_scheduled h, takeTurn, engineTurn, if_pos]
    exact busy_of_running hp
  · rw [step_running hp h, ← h]

/-- A run of k + 1 steps whose first answers `t` is a run of k steps from `t`. -/
theorem coreRun_succ (m : Host.Core) {s t : m.State} (k : Nat) (h : m.step s = .next t) :
    m.run (k + 1) s = m.run k t := by
  show (match m.step s with
    | .next s' => m.run k s'
    | .fault r => .fault r
    | .refused r => .refused r) = _
  rw [h]

/-- A run that answers no state after `a` steps answers none after more. -/
theorem coreRun_stopped (m : Host.Core) (b : Nat) : ∀ (a : Nat) (s : m.State),
    (∀ u, m.run a s ≠ .next u) → ∀ u, m.run (a + b) s ≠ .next u
  | 0, s, h => absurd rfl (h s)
  | a + 1, s, h => by
    rw [Nat.add_right_comm]
    show ∀ u, (match m.step s with
      | .next s' => m.run (a + b) s'
      | .fault r => .fault r
      | .refused r => .refused r) ≠ .next u
    match hs : m.step s with
    | .next t => exact coreRun_stopped m b a t (by rwa [coreRun_succ m a hs] at h)
    | .fault _ => exact fun _ h => nomatch h
    | .refused _ => exact fun _ h => nomatch h

/-- A run of this machine goes on from its first step. -/
theorem run_succ {s t : State} (k : Nat) (h : step s = .next t) :
    Host.Core.run Sys2Proof.core (k + 1) s = Host.Core.run Sys2Proof.core k t :=
  coreRun_succ Sys2Proof.core k h

theorem hostTurn_ended {s : State} (h : s.host.move = .ended) : hostTurn s = .next s := by
  simp [hostTurn, h]

theorem hostTurn_read {s : State} {width : Width} {off x : Nat} (h : s.host.move = .read width off x) :
    hostTurn s = hostRead width off x s := by
  simp [hostTurn, h]

theorem hostTurn_write {s : State} {width : Width} {off : Nat} {v : Byte}
    (h : s.host.move = .write width off v) : hostTurn s = hostWrite width off v s := by
  simp [hostTurn, h]

theorem hostTurn_poll {s : State} (h : s.host.move = .poll) : hostTurn s = .next (hostPoll s) := by
  simp [hostTurn, h]

theorem hostTurn_own {s : State} {h' : HostState} (h : s.host.move = .own h') :
    hostTurn s = .next { s with host := h' } := by
  simp [hostTurn, h]

/-- A one-byte read in the window answers a next state (20_memory.md R66, R67). -/
theorem hostRead_byte {off : Nat} (x : Nat) (s : State) (h : off < 16) :
    hostRead .byte off x s = .next (deliverRead off { s with host := s.host.receive x (readValue off s) }) := by
  simp [hostRead, show ¬ 16 ≤ off by omega]

/-- A one-byte write in the window while BUSY = 0 answers a next state (20_memory.md R64, R65). -/
theorem hostWrite_byte {off : Nat} {v : Byte} {s : State} (h : off < 16) (hp : s.phase = .idle) :
    hostWrite .byte off v s = .next (regWrite off v { s with host := s.host.goOn }) := by
  simp [hostWrite, show ¬ 16 ≤ off by omega, busy_of_idle hp]

theorem readValue_idle {off : Nat} {s : State} (hp : s.phase = .idle) : readValue off s = regRead s off := by
  simp [readValue, busy_of_idle hp]

/-- A read of STATUS while BUSY = 1 gets BUSY = 1 (20_memory.md R66). -/
theorem readValue_status_busy {s : State} (hp : s.phase = .running) :
    (readValue 0x2 s).getLsbD 0 = true := by
  simp only [readValue, busy_of_running hp]
  exact (getLsbD_setBit _ 0 0 true (by decide)).trans (if_pos rfl)

/-- Bit 0 of STATUS is BUSY (10_state.md R25). -/
theorem statusByte_bit0 (s : State) : (statusByte s).getLsbD 0 = s.busy := by
  unfold statusByte
  rw [BitVec.getLsbD_append]
  simp

/-- A poll while BUSY = 1 stays in the loop, and at BUSY = 0 it leaves it (30_encoding.md R91). -/
theorem hostPoll_running {s : State} (hp : s.phase = .running) : hostPoll s = deliverRead 0x2 s := by
  rw [hostPoll, if_pos (readValue_status_busy hp)]

theorem hostPoll_idle {s : State} (hp : s.phase = .idle) :
    hostPoll s = deliverRead 0x2 { s with host := s.host.goOn } := by
  have h : (readValue 0x2 s).getLsbD 0 = false := by
    rw [readValue_idle hp]
    exact (statusByte_bit0 s).trans (busy_of_idle hp)
  rw [hostPoll, if_neg (by rw [h]; decide)]

/-- What a HOST's turn can do: a move of its own or nothing, a read (a poll among them), or a write while IDLE. -/
theorem hostTurn_cases {s t : State} (h : hostTurn s = .next t) :
    (∃ h', s.host.Next h' ∧ t = { s with host := h' }) ∨
      (∃ off h', off < 16 ∧ s.host.Next h' ∧ s.host.move.accesses = true ∧
        t = deliverRead off { s with host := h' }) ∨
      ∃ off v, off < 16 ∧ s.phase = .idle ∧ s.host.move = .write .byte off v ∧
        t = regWrite off v { s with host := s.host.goOn } := by
  match hm : s.host.move with
  | .ended => rw [hostTurn_ended hm] at h; cases h; exact .inl ⟨_, .stay, rfl⟩
  | .read width off x =>
    rw [hostTurn_read hm, hostRead] at h
    split at h
    · cases h
    · split at h
      · cases h
      · rename_i hoff _
        cases h
        exact .inr (.inl ⟨off, _, by omega, .receive _ _, rfl, rfl⟩)
  | .write width off v =>
    rw [hostTurn_write hm, hostWrite] at h
    split at h
    · cases h
    · split at h
      · cases h
      · split at h
        · cases h
        · rename_i hoff hw hb
          have hw' : width = .byte := by cases width with
            | byte => rfl
            | wider => exact absurd rfl hw
          have hp : s.phase = .idle := by
            cases hp : s.phase with
            | idle => rfl
            | running => exact absurd (busy_of_running hp) hb
          cases h
          subst hw'
          exact .inr (.inr ⟨off, v, by omega, hp, rfl, rfl⟩)
  | .poll =>
    rw [hostTurn_poll hm] at h
    cases h
    refine .inr (.inl ⟨0x2, if (readValue 0x2 s).getLsbD 0 then s.host else s.host.goOn, by omega, ?_, rfl, rfl⟩)
    split
    · exact .stay
    · exact .goOn
  | .own h' => rw [hostTurn_own hm] at h; cases h; exact .inl ⟨_, .own _ hm, rfl⟩

/-- What a step can do: complete the running command, reset the hardware, deliver a HOST read, perform a HOST
write while IDLE, or move nothing but the HOST and the schedule. -/
theorem step_cases {s t : State} (h : step s = .next t) :
    (s.phase = .running ∧ engineStep { s with schedule := s.schedule.tail } = .next t) ∨
    (∃ slots turns, s.schedule = .hardwareReset slots :: turns ∧
      t = hardwareReset slots { s with schedule := turns }) ∨
    (∃ off h', off < 16 ∧ s.host.Next h' ∧ s.host.move.accesses = true ∧
      t = deliverRead off { s with schedule := s.schedule.tail, host := h' }) ∨
    (∃ off v, off < 16 ∧ s.phase = .idle ∧ s.host.move = .write .byte off v ∧
      t = regWrite off v { s with schedule := s.schedule.tail, host := s.host.goOn }) ∨
    ∃ h', s.host.Next h' ∧ t = { s with schedule := s.schedule.tail, host := h' } := by
  have host : ∀ s' : State, s' = { s with schedule := s.schedule.tail } → hostTurn s' = .next t →
      (∃ off h', off < 16 ∧ s.host.Next h' ∧ s.host.move.accesses = true ∧
        t = deliverRead off { s with schedule := s.schedule.tail, host := h' }) ∨
      (∃ off v, off < 16 ∧ s.phase = .idle ∧ s.host.move = .write .byte off v ∧
        t = regWrite off v { s with schedule := s.schedule.tail, host := s.host.goOn }) ∨
      ∃ h', s.host.Next h' ∧ t = { s with schedule := s.schedule.tail, host := h' } := by
    rintro s' rfl ht
    rcases hostTurn_cases ht with h1 | h1 | h1
    · exact .inr (.inr h1)
    · exact .inl h1
    · exact .inr (.inl h1)
  match hs : s.schedule with
  | [] =>
    have hself : s = { s with schedule := s.schedule.tail } := by
      cases s; simp only at hs; subst hs; rfl
    rw [← hs]
    by_cases hp : s.phase = .running
    · rw [step_running hp hs] at h
      exact .inl ⟨hp, hself ▸ h⟩
    · have hp' : s.phase = .idle := by
        cases hq : s.phase with
        | idle => rfl
        | running => exact absurd hq hp
      rw [step_idle hp' hs] at h
      exact .inr (.inr (host s hself h))
  | .engine :: turns =>
    rw [step_scheduled hs, takeTurn, engineTurn] at h
    by_cases hb : s.busy = true
    · rw [if_pos (by exact hb)] at h
      exact .inl ⟨by simpa [State.busy] using hb, h⟩
    · rw [if_neg (by exact hb)] at h
      cases h
      exact .inr (.inr (.inr (.inr ⟨_, .stay, rfl⟩)))
  | .host :: turns =>
    rw [step_scheduled hs, takeTurn] at h
    have := host { s with schedule := turns } (by rw [hs]; rfl) h
    rw [hs] at this
    exact .inr (.inr this)
  | .hardwareReset slots :: turns =>
    rw [step_scheduled hs, takeTurn] at h
    cases h
    exact .inr (.inl ⟨slots, turns, rfl, rfl⟩)

end Sys2Proof.Machine
end

