-- ==== Sys2Proof/Tests/Slice0.lean ====
section
/-! SUPPORT. Tests whose expected results come from the spec's vectors (95_test_vectors.md, named V-...) or are
worked out by hand from the rules named; then one witness for each statement with hypotheses. -/

namespace Sys2Proof.Tests

open Sys2Proof Sys2Proof.Machine

/-! ### Helpers -/

/-- A BUS that answers a reset slot's two samples, and 1 to every read. -/
def resetBus (p idle : Bool) : Oracle := fun _ kind =>
  match kind with
  | .presence => p
  | .idle => idle
  | .read => true

/-- A BUS that answers by the length of the trace, and 1 after the end of the list. -/
def listBus (answers : List Bool) : Oracle := fun trace _ => answers[trace.length]?.getD true

/-- The reference bus with device A, which answers (1,1) at bit n. -/
def vanishBus (devices : List (Vector Byte 8)) (n : Nat) : Oracle := fun trace kind =>
  if kind = .read ∧ 9 + 3 * (n - 1) ≤ trace.length then true else RefBus.searchBus devices trace kind

/-- Devices of 95_test_vectors.md. -/
def devA : Vector Byte 8 := #v[0x28#8, 0x01#8, 0x02#8, 0x03#8, 0x04#8, 0x05#8, 0x06#8, 0x9E#8]

def devB : Vector Byte 8 := #v[0x28#8, 0x00#8, 0x02#8, 0x03#8, 0x04#8, 0x05#8, 0x06#8, 0xA9#8]

/-- The device of V-S7, whose check byte is wrong. -/
def devBad : Vector Byte 8 := #v[0x28#8, 0x01#8, 0x02#8, 0x03#8, 0x04#8, 0x05#8, 0x06#8, 0x00#8]

/-- `x <- RegRead(off)`. -/
def rd (off : HostWord) (x : Nat) : HostOp := regReadOp (.const off) x

/-- `RegWrite(off, v)`. -/
def wr (off v : Byte) : HostOp := regWriteOp off (.byte v)

/-- A HOST at place `k` of a program, with the variables given. -/
def hostAt (ops : List HostOp) (k : Nat) (vars : List (Nat × HostWord)) : HostState :=
  { HostState.start ops [] with pc := k, vars := vars }

/-- A HOST at the start of a program. -/
def hostOf (ops : List HostOp) : HostState := HostState.start ops []

/-- The state after reset with something for the HOST to do. -/
def hostState (ops : List HostOp) (turns : List Turn) : State :=
  { State.reset with host := hostOf ops, schedule := turns }

/-- The state after reset with a command running. -/
def runState (w : Word) (turns : List Turn) : State := { placeCommand w State.reset with schedule := turns }

/-- The next state, or none. -/
def nextOf : Host.Outcome State Fault Refusal → Option State
  | .next s => some s
  | .fault _ => none
  | .refused _ => none

/-- The fault or the refusal, or neither. -/
def stopOf : Host.Outcome State Fault Refusal → Option (Fault ⊕ Refusal)
  | .next _ => none
  | .fault r => some (.inl r)
  | .refused r => some (.inr r)

/-- STATUS of the next state, or none. -/
def statusOf : Host.Outcome State Fault Refusal → Option Byte
  | .next s => some (statusByte s)
  | .fault _ => none
  | .refused _ => none

/-- The trace of the next state, or none. -/
def traceOf : Host.Outcome State Fault Refusal → Option (List BusEvent)
  | .next s => some s.trace
  | .fault _ => none
  | .refused _ => none

/-! ### Well-formed lines: one ill-formed line for each check (30_encoding.md R90) -/

theorem test_ill_formed_lines_refused :
    (AsmLine.mk .owWbit (some 2)).wellFormed = false ∧ (AsmLine.mk .owWbit none).wellFormed = false ∧
    (AsmLine.mk .owWbyte (some 256)).wellFormed = false ∧ (AsmLine.mk .owCrcld none).wellFormed = false ∧
    (AsmLine.mk .owCrcup (some 256)).wellFormed = false ∧ (AsmLine.mk .owReset (some 0)).wellFormed = false := by
  decide

theorem test_well_formed_lines :
    (AsmLine.mk .owWbit (some 1)).assemble = some (.owWbit true) ∧
    (AsmLine.mk .owWbyte (some 0xF0)).assemble = some (.owWbyte 0xF0#8) ∧
    (AsmLine.mk .owSnext none).assemble = some .owSnext ∧ (AsmLine.mk .owWbit (some 2)).assemble = none := by
  decide

/-! ### Decoding, from the words of 30_encoding.md R90 and V-E1 to V-E17 -/

theorem test_decode_bit_engine :
    decode 0x0001#16 = .command .owReset ∧ decode 0xAB01#16 = .command .owReset ∧
    decode 0x0002#16 = .command (.owWbit false) ∧ decode 0x0102#16 = .command (.owWbit true) ∧
    decode 0x0003#16 = .command .owRbit := by decide

theorem test_decode_byte_engine :
    decode 0x5A04#16 = .command (.owWbyte 0x5A#8) ∧ decode 0xF004#16 = .command (.owWbyte 0xF0#8) ∧
    decode 0x0005#16 = .command .owRbyte := by decide

theorem test_decode_crc :
    decode 0x0006#16 = .command (.owCrcld 0x00#8) ∧ decode 0xFF07#16 = .command (.owCrcup 0xFF#8) ∧
    decode 0x2807#16 = .command (.owCrcup 0x28#8) := by decide

theorem test_decode_search :
    decode 0x0008#16 = .command .owSrst ∧ decode 0x0009#16 = .command .owSnext := by decide

theorem test_decode_illegal :
    decode 0x0000#16 = .illegal .opcode ∧ decode 0x000A#16 = .illegal .opcode ∧
    decode 0x000F#16 = .illegal .opcode ∧ decode 0x0202#16 = .illegal .bitOperandRange ∧
    decode 0xFF02#16 = .illegal .bitOperandRange ∧ decode 0x0011#16 = .illegal .reservedBits ∧
    decode 0x00F9#16 = .illegal .reservedBits := by decide

/-- The words of the assembler's table (30_encoding.md R90). -/
theorem test_encode :
    encode .owReset = 0x0001#16 ∧ encode (.owWbit true) = 0x0102#16 ∧ encode .owRbit = 0x0003#16 ∧
    encode (.owWbyte 0xF0#8) = 0xF004#16 ∧ encode .owRbyte = 0x0005#16 ∧
    encode (.owCrcld 0x00#8) = 0x0006#16 ∧ encode (.owCrcup 0x28#8) = 0x2807#16 ∧
    encode .owSrst = 0x0008#16 ∧ encode .owSnext = 0x0009#16 := by decide

theorem test_decode_table_word :
    decodeTableWord 16 0x0102 = some (.owWbit true) ∧ decodeTableWord 16 0x5A04 = some (.owWbyte 0x5A#8) ∧
    decodeTableWord 16 0x0202 = none ∧ decodeTableWord 8 0x01 = some .owReset := by decide

/-! ### The CRC8 table, row by row (42_crc8.md R152) -/

/-- Row `hi` of the table. -/
def crcRow (hi : Nat) : List Nat := (List.range 16).map fun lo => (crcTable (BitVec.ofNat 8 (16 * hi + lo))).toNat

theorem test_crc_table_rows_0_to_3 :
    crcRow 0 = [0x00, 0x5E, 0xBC, 0xE2, 0x61, 0x3F, 0xDD, 0x83, 0xC2, 0x9C, 0x7E, 0x20, 0xA3, 0xFD, 0x1F, 0x41] ∧
    crcRow 1 = [0x9D, 0xC3, 0x21, 0x7F, 0xFC, 0xA2, 0x40, 0x1E, 0x5F, 0x01, 0xE3, 0xBD, 0x3E, 0x60, 0x82, 0xDC] ∧
    crcRow 2 = [0x23, 0x7D, 0x9F, 0xC1, 0x42, 0x1C, 0xFE, 0xA0, 0xE1, 0xBF, 0x5D, 0x03, 0x80, 0xDE, 0x3C, 0x62] ∧
    crcRow 3 = [0xBE, 0xE0, 0x02, 0x5C, 0xDF, 0x81, 0x63, 0x3D, 0x7C, 0x22, 0xC0, 0x9E, 0x1D, 0x43, 0xA1, 0xFF] := by
  decide +kernel

theorem test_crc_table_rows_4_to_7 :
    crcRow 4 = [0x46, 0x18, 0xFA, 0xA4, 0x27, 0x79, 0x9B, 0xC5, 0x84, 0xDA, 0x38, 0x66, 0xE5, 0xBB, 0x59, 0x07] ∧
    crcRow 5 = [0xDB, 0x85, 0x67, 0x39, 0xBA, 0xE4, 0x06, 0x58, 0x19, 0x47, 0xA5, 0xFB, 0x78, 0x26, 0xC4, 0x9A] ∧
    crcRow 6 = [0x65, 0x3B, 0xD9, 0x87, 0x04, 0x5A, 0xB8, 0xE6, 0xA7, 0xF9, 0x1B, 0x45, 0xC6, 0x98, 0x7A, 0x24] ∧
    crcRow 7 = [0xF8, 0xA6, 0x44, 0x1A, 0x99, 0xC7, 0x25, 0x7B, 0x3A, 0x64, 0x86, 0xD8, 0x5B, 0x05, 0xE7, 0xB9] := by
  decide +kernel

theorem test_crc_table_rows_8_to_B :
    crcRow 8 = [0x8C, 0xD2, 0x30, 0x6E, 0xED, 0xB3, 0x51, 0x0F, 0x4E, 0x10, 0xF2, 0xAC, 0x2F, 0x71, 0x93, 0xCD] ∧
    crcRow 9 = [0x11, 0x4F, 0xAD, 0xF3, 0x70, 0x2E, 0xCC, 0x92, 0xD3, 0x8D, 0x6F, 0x31, 0xB2, 0xEC, 0x0E, 0x50] ∧
    crcRow 10 = [0xAF, 0xF1, 0x13, 0x4D, 0xCE, 0x90, 0x72, 0x2C, 0x6D, 0x33, 0xD1, 0x8F, 0x0C, 0x52, 0xB0, 0xEE] ∧
    crcRow 11 = [0x32, 0x6C, 0x8E, 0xD0, 0x53, 0x0D, 0xEF, 0xB1, 0xF0, 0xAE, 0x4C, 0x12, 0x91, 0xCF, 0x2D, 0x73] := by
  decide +kernel

theorem test_crc_table_rows_C_to_F :
    crcRow 12 = [0xCA, 0x94, 0x76, 0x28, 0xAB, 0xF5, 0x17, 0x49, 0x08, 0x56, 0xB4, 0xEA, 0x69, 0x37, 0xD5, 0x8B] ∧
    crcRow 13 = [0x57, 0x09, 0xEB, 0xB5, 0x36, 0x68, 0x8A, 0xD4, 0x95, 0xCB, 0x29, 0x77, 0xF4, 0xAA, 0x48, 0x16] ∧
    crcRow 14 = [0xE9, 0xB7, 0x55, 0x0B, 0x88, 0xD6, 0x34, 0x6A, 0x2B, 0x75, 0x97, 0xC9, 0x4A, 0x14, 0xF6, 0xA8] ∧
    crcRow 15 = [0x74, 0x2A, 0xC8, 0x96, 0x15, 0x4B, 0xA9, 0xF7, 0xB6, 0xE8, 0x0A, 0x54, 0xD7, 0x89, 0x6B, 0x35] := by
  decide +kernel

/-- V-C5, V-C6 (bit 9 flipped) and V-C8: "123456789" gives 0xA1. -/
theorem test_crc8_sequences :
    crc8 0x00#8 devA.toList = 0x00#8 ∧ crc8 0x00#8 (devA.toList.take 7) = 0x9E#8 ∧
    crc8 0x00#8 (devA.toList.set 1 0x00#8) = 0x3D#8 ∧
    crc8 0x00#8 [0x31#8, 0x32#8, 0x33#8, 0x34#8, 0x35#8, 0x36#8, 0x37#8, 0x38#8, 0x39#8] = 0xA1#8 := by
  decide +kernel

/-! ### The commands -/

/-- V-R1 to V-R4. -/
theorem test_owReset_outcomes :
    (owReset (resetBus false true) State.reset).result = .presence ∧
    (owReset (resetBus true true) State.reset).result = .noPresence ∧
    (owReset RefBus.stuckLow State.reset).result = .busError ∧
    (owReset (resetBus true false) State.reset).result = .busError := by decide

/-- V-R5: STATUS 0x14, and LD, CRC and DATA unchanged. -/
theorem test_owReset_writes_result_alone :
    let s : State := { State.reset with done := true, ld := 7#7, crc := 0x33#8, data := 0x44#8 }
    let t := owReset (resetBus false true) s
    statusByte t = 0x14#8 ∧ t.ld = 7#7 ∧ t.crc = 0x33#8 ∧ t.data = 0x44#8 ∧ t.trace = [.rst false true] := by
  decide

/-- V-B1, V-B7. -/
theorem test_owWbit :
    let t := owWbit true { State.reset with crc := 0x5A#8 }
    t.trace = [.w true] ∧ statusByte t = 0x02#8 ∧ t.crc = 0x5A#8 := by decide

/-- V-B3, V-B5. -/
theorem test_owRbit :
    (owRbit (listBus [true]) State.reset).data = 0x01#8 ∧
    (owRbit (listBus [false]) { State.reset with data := 0xFF#8 }).data = 0x00#8 ∧
    (owRbit (listBus [false]) State.reset).trace = [.r false] := by decide

/-- V-Y1, V-Y2. -/
theorem test_owWbyte_lsb_first :
    (owWbyte 0xF0#8 State.reset).trace =
      [.w false, .w false, .w false, .w false, .w true, .w true, .w true, .w true] ∧
    (owWbyte 0x01#8 State.reset).trace =
      [.w true, .w false, .w false, .w false, .w false, .w false, .w false, .w false] := by decide

/-- V-Y4, V-Y7: the first sample is bit 0. -/
theorem test_owRbyte_lsb_first :
    (owRbyte (listBus [false, false, false, true, false, true, false, false]) State.reset).data = 0x28#8 ∧
    (owRbyte (listBus [true, false, false, false, false, false, false, false]) State.reset).data = 0x01#8 := by
  decide

/-- V-Y8: STATUS 0x02 and CRC unchanged. -/
theorem test_owRbyte_leaves_crc :
    let t := owRbyte (listBus []) { State.reset with crc := 0x77#8 }
    t.data = 0xFF#8 ∧ t.crc = 0x77#8 ∧ statusByte t = 0x02#8 := by decide

/-- V-C3, V-C4. -/
theorem test_owCrcld_and_owCrcup :
    (owCrcup 0x00#8 (owCrcld 0xFF#8 State.reset)).crc = 0x35#8 ∧
    (owCrcup 0x5A#8 (owCrcld 0x5A#8 State.reset)).crc = 0x00#8 ∧
    (owCrcup 0x28#8 (owCrcld 0x00#8 State.reset)).crc = 0xE1#8 := by decide

/-- V-SR1. -/
theorem test_owSrst :
    let t := owSrst { State.reset with ld := 10#7, crc := 0x12#8, rom := devA }
    t.ld = 0#7 ∧ t.done = false ∧ t.crc = 0x12#8 ∧ t.rom = devA ∧ statusByte t = 0x02#8 := by decide

/-- V-S1, pass 1: STATUS 0x1A, 201 slots. -/
theorem test_owSnext_single_device :
    let t := owSnext (RefBus.searchBus [devA]) State.reset
    t.rom = devA ∧ t.crc = 0x00#8 ∧ t.ld = 0#7 ∧ statusByte t = 0x1A#8 ∧ t.trace.length = 201 := by
  decide +kernel

/-- V-S2, pass 1: B is found first, LD = 9, STATUS 0x0A. -/
theorem test_owSnext_collision :
    let t := owSnext (RefBus.searchBus [devA, devB]) State.reset
    t.rom = devB ∧ t.ld = 9#7 ∧ statusByte t = 0x0A#8 := by
  decide +kernel

/-! ### The step: V-E5, V-E14, V-E16, V-E19 and V-X2 -/

theorem test_step_illegal :
    statusOf (step (runState 0x0202#16 [])) = some 0x0E#8 ∧
    statusOf (step (runState 0x0011#16 [])) = some 0x0E#8 ∧
    traceOf (step (runState 0x0011#16 [])) = some [] := by decide

/-- V-E19: STATUS 0x1E, LD unchanged. -/
theorem test_step_illegal_keeps_session :
    nextOf (step { runState 0x000A#16 [] with done := true, ld := 9#7 }) =
      some { runState 0x000A#16 [] with done := true, ld := 9#7, result := .illegal, phase := .idle } := by
  decide

theorem test_step_hardware_reset_cuts_short :
    traceOf (step (runState 0xF004#16 [.hardwareReset 3])) =
      some [.w false, .w false, .w false, .abort] ∧
    statusOf (step (runState 0xF004#16 [.hardwareReset 3])) = some 0x00#8 := by decide

/-- R242 with j the slot count: no ABORT. -/
theorem test_step_hardware_reset_after_last_slot :
    traceOf (step (runState 0x0102#16 [.hardwareReset 1])) = some [.w true] ∧
    traceOf (step (runState 0x0102#16 [.hardwareReset 0])) = some [.abort] ∧
    traceOf (step (runState 0x2807#16 [.hardwareReset 0])) = some [] := by decide

theorem test_step_runs_placed_word :
    nextOf (step (State.reset.withFetchWord 16 0x5A06)) =
      some { State.reset with
        cmd := 0x06#8, arg := 0x5A#8, lcmd := 0x5A06#16, crc := 0x5A#8, result := .ok } := by decide

/-! ### The host interface: V-H1 to V-H9 -/

/-- V-H1 and V-H2: a read puts the register's value in its variable. -/
theorem test_host_reads :
    nextOf (step { hostState [rd 0x1 3] [] with arg := 0xA5#8 }) =
      some { State.reset with arg := 0xA5#8, host := hostAt [rd 0x1 3] 1 [(3, 0xA5)], reads := [0xA5#8] } ∧
    nextOf (step (hostState [rd 0xF 3] [])) =
      some { State.reset with host := hostAt [rd 0xF 3] 1 [], reads := [0x00#8] } := by decide

theorem test_host_arg_write_and_ignored_writes :
    nextOf (step (hostState [wr 0x1 0xA5#8] [])) =
      some { State.reset with arg := 0xA5#8, host := hostAt [wr 0x1 0xA5#8] 1 [] } ∧
    nextOf (step (hostState [wr 0x2 0xFF#8] [])) =
      some { State.reset with host := hostAt [wr 0x2 0xFF#8] 1 [] } ∧
    nextOf (step (hostState [wr 0xF 0x55#8] [])) =
      some { State.reset with host := hostAt [wr 0xF 0x55#8] 1 [] } := by decide

/-- V-H9: CMD reads back the illegal byte. -/
theorem test_host_cmd_write :
    nextOf (step (hostState [wr 0x0 0x0A#8] [])) = some { State.reset with
      cmd := 0x0A#8, lcmd := 0x000A#16, phase := .running, host := hostAt [wr 0x0 0x0A#8] 1 [] } := by decide

/-- V-H5, V-H7 and an access outside the window; and accesses wrong in two ways (log entry 25). -/
theorem test_host_violations :
    stopOf (step { runState 0x0009#16 [.host] with host := hostOf [wr 0x1 0x00#8] }) =
      some (.inr .writeWhileBusy) ∧
    stopOf (step (hostState [.read .wider (.const 0x0) 0] [])) = some (.inr .wideAccess) ∧
    stopOf (step (hostState [wr 0x10 0x00#8] [])) = some (.inl .outsideWindow) ∧
    stopOf (step { runState 0x0009#16 [.host] with host := hostOf [.write .wider (.const 0x1) (.const 0)] }) =
      some (.inr .wideAccess) := by decide

/-- The expansions of the pseudo-instructions (30_encoding.md R91) and the window (20_memory.md R69). -/
theorem test_host_program :
    owCrcclr = [wr 0x1 0x00#8, wr 0x0 0x06#8, .wait] ∧
    owWbytes [.byte 0x33#8, .mem (.var 2)] = [wr 0x1 0x33#8, wr 0x0 0x04#8, .wait,
      .write .byte (.byte 0x1#8) (.mem (.var 2)), wr 0x0 0x04#8, .wait] ∧
    resultField 0x1C#8 = 6#3 ∧ windowOffset 0x4000 0x400F = some 0xF ∧ windowOffset 0x4000 0x4010 = none ∧
    (launch State.reset (owRslt 0) [] []).ended = false ∧ (launchFromReset 0 [] []).ended = true := by decide

/-- OW_RSLT's last line: STATUS = 0x1C, read into variable 4, gives NOT_FOUND, code 6. -/
theorem test_owRslt_takes_result :
    (hostAt (owRslt 4) 2 [(4, 0x1C)]).move = .own (hostAt (owRslt 4) 3 [(4, 6)]) := by decide

/-- A launch from a state that is not the reset state (00_scope.md R13). -/
theorem test_launch_from_any_state :
    launch { State.reset with rom := devA, done := true, trace := [.abort], reads := [0x01#8] } [.wait] [(8, 0x28)] [] =
      { State.reset with
        rom := devA, done := true, host := { program := [.wait], pc := 0, vars := [], mem := [(8, 0x28)] } } := by
  decide

/-! ### HOST control flow: program P1 of 95_test_vectors.md, with n, r, j and a byte in variables 0 to 3 -/

/-- P1, Discover, with its three labels as places 3 (loop) and 18 (end). -/
def discover : List HostOp :=
  commandOps .owSrst ++ [.set 0 (.const 0), .branch (.bin .eq (.var 0) (.const 4)) 15] ++ commandOps .owSnext ++
    owRslt 1 ++ [.branch (.bin .ne (.var 1) (.const 5)) 9] ++
    forLoop 2 (.const 0) (.const 7)
      [regReadOp (.bin .add (.const 0x8) (.var 2)) 3,
        .store (.bin .add (.bin .mul (.const 8) (.var 0)) (.var 2)) (.var 3)] ++
    [.set 0 (.bin .add (.var 0) (.const 1)), gotoOp (-14)]

/-- `if r != 5 goto end` on NOT_FOUND and on FOUND, and `if n == 4 goto end`. -/
theorem test_discover_branches :
    (hostAt discover 9 [(1, 6)]).move = .own (hostAt discover 18 [(1, 6)]) ∧
    (hostAt discover 9 [(1, 5)]).move = .own (hostAt discover 10 [(1, 5)]) ∧
    (hostAt discover 3 [(0, 4)]).move = .own (hostAt discover 18 [(0, 4)]) ∧
    (hostAt discover 17 []).move = .own (hostAt discover 3 []) ∧ (hostAt discover 18 []).move = .ended := by
  decide

/-- `hmem[8*n + j] <- RegRead(0x8 + j)` with n = 1 and j = 7, and the loop's two ends. -/
theorem test_discover_loop :
    (hostAt discover 12 [(0, 1), (2, 7)]).move = .read .byte 0xF 3 ∧
    (hostAt discover 13 [(0, 1), (2, 7), (3, 0x9E)]).move =
      .own { hostAt discover 14 [(0, 1), (2, 7), (3, 0x9E)] with mem := [(15, 0x9E)] } ∧
    (hostAt discover 11 [(2, 7)]).move = .own (hostAt discover 12 [(2, 7)]) ∧
    (hostAt discover 11 [(2, 8)]).move = .own (hostAt discover 16 [(2, 8)]) ∧
    (hostAt discover 15 [(2, 8)]).move = .own (hostAt discover 11 [(2, 8)]) := by decide

/-- A choice between two writes by a value read: RESULT = 2 takes the first arm, which then skips the second. -/
theorem test_if_then_else :
    let ops := ifThenElse (.bin .eq (.var 0) (.const 2)) [wr 0x1 0x55#8] [wr 0x1 0xFF#8]
    (hostAt ops 0 [(0, 2)]).move = .own (hostAt ops 3 [(0, 2)]) ∧
    (hostAt ops 3 [(0, 2)]).move = .write .byte 0x1 0x55#8 ∧ (hostAt ops 4 [(0, 2)]).move = .ended ∧
    (hostAt ops 0 [(0, 3)]).move = .own (hostAt ops 1 [(0, 3)]) ∧
    (hostAt ops 1 [(0, 3)]).move = .write .byte 0x1 0xFF#8 ∧
    (hostAt ops 2 [(0, 3)]).move = .own (hostAt ops 4 [(0, 3)]) := by decide

/-- The corners of the HOST's operators (log entry 26): wrapping, a shift by 64, unsigned comparison, a write of the
low byte, a backward jump held at 0. -/
theorem test_host_operators :
    HostBin.eval .sub 0 1 = 0xFFFFFFFFFFFFFFFF ∧ HostBin.eval .shl 1 64 = 0 ∧ HostBin.eval .shr 0x80 7 = 1 ∧
    HostBin.eval .lt 0xFFFFFFFFFFFFFFFF 1 = 0 ∧
    (hostOf [.write .byte (.const 1) (.const (-10))]).move = .write .byte 1 0xF6#8 ∧
    (hostOf [gotoOp (-5)]).move = .own (hostOf [gotoOp (-5)]) := by decide

/-- Cells keep their canonical form: a write of 0 takes the entry out. -/
theorem test_host_cells :
    cellPut [(1, 7), (4, 9)] 3 8 = [(1, 7), (3, 8), (4, 9)] ∧ cellPut [(1, 7), (4, 9)] 4 0 = [(1, 7)] ∧
    cellPut [] 2 0 = [] ∧ cellGet [(1, 7), (4, 9)] 4 = 9 ∧ cellGet [(1, 7)] 2 = 0 := by decide

/-! ### Witnesses: each statement's hypotheses are met by a concrete state and operands -/

theorem witness_DecodeEncodeAgree :
    decode 0x0102#16 = .command (.owWbit true) ∧ (0x0102#16 : Word) = encode (.owWbit true) ∧
    decode 0xFF09#16 = .command .owSnext ∧ (0xFF09#16 : Word) ≠ encode .owSnext := by decide

theorem witness_AssemblerTakesWellFormedLines :
    (AsmLine.mk .owWbyte (some 255)).wellFormed = true ∧
    (AsmLine.mk .owWbyte (some 256)).wellFormed = false := by decide

theorem witness_StepRunsDecodedCommand :
    (EngineMoves (runState 0x0009#16 []) [] ∧ decode (runState 0x0009#16 []).lcmd = .command .owSnext) ∧
    (EngineMoves (runState 0xFF04#16 [.engine, .host]) [.host] ∧
      decode (runState 0xFF04#16 [.engine, .host]).lcmd = .command (.owWbyte 0xFF#8)) :=
  ⟨⟨⟨rfl, .inr ⟨rfl, rfl⟩⟩, by decide⟩, ⟨⟨rfl, .inl rfl⟩, by decide⟩⟩

/-- Every state that differs from reset only in the word latched and the phase meets the invariant. -/
theorem witness_running_inv (w : Word) (turns : List Turn) : Inv (runState w turns) where
  ldRange := by show (0#7).toNat ≤ 64; decide
  released := rfl
  latched := fun _ => by
    show commandWord (argField w) (w.extractLsb' 0 8) = commandWord (argField w) (w.extractLsb' 0 8)
    rfl
  foundValid := fun h => by cases h
  foundSession := fun h => by cases h
  doneLd := fun h => by cases h
  noneYet := fun _ => ⟨rfl, rfl, rfl, rfl, rfl⟩
  hostCells := (by decide : State.reset.host.wf)

theorem witness_IllegalCommandCompletesIllegal :
    (EngineMoves (runState 0x0202#16 []) [] ∧
      decode (runState 0x0202#16 []).lcmd = .illegal .bitOperandRange) ∧
    (EngineMoves (runState 0x00F9#16 [.engine]) [] ∧
      decode (runState 0x00F9#16 [.engine]).lcmd = .illegal .reservedBits) ∧
    decode (runState 0x000A#16 []).lcmd = .illegal .opcode ∧ Inv (runState 0x0202#16 []) :=
  ⟨⟨⟨rfl, .inr ⟨rfl, rfl⟩⟩, by decide⟩, ⟨⟨rfl, .inl rfl⟩, by decide⟩, by decide, witness_running_inv _ _⟩

theorem witness_OwResetClassifiesTheSlot : 0xAB01#16 &&& 0x00FF#16 = 0x0001#16 := by decide

theorem witness_OwWbitWritesOneBit :
    (opcField 0x0202#16 = 0x2#4 ∧ rsvField 0x0202#16 = 0#4 ∧ wbitReserved 0x0202#16 ≠ 0#7) ∧
    (opcField 0xFF02#16 = 0x2#4 ∧ rsvField 0xFF02#16 = 0#4 ∧ wbitReserved 0xFF02#16 ≠ 0#7) := by decide

theorem witness_OwRbitReadsOneBit : 0xFF03#16 &&& 0x00FF#16 = 0x0003#16 := by decide

theorem witness_OwWbyteWritesEightBits : 0xFF04#16 &&& 0x00FF#16 = 0x0004#16 := by decide

theorem witness_OwRbyteReadsEightBits : 0xFF05#16 &&& 0x00FF#16 = 0x0005#16 := by decide

theorem witness_OwCrcldLoadsCrc : 0xFF06#16 &&& 0x00FF#16 = 0x0006#16 := by decide

theorem witness_OwCrcupFoldsOneByte : 0xFF07#16 &&& 0x00FF#16 = 0x0007#16 := by decide

theorem witness_OwSrstClearsSession : 0xFF08#16 &&& 0x00FF#16 = 0x0008#16 := by decide

theorem witness_OwSnextCompletes : 0xFF09#16 &&& 0x00FF#16 = 0x0009#16 := by decide

theorem witness_CrcDetectsSingleBitFlip :
    crc8 0x00#8 devA.toList = 0x00#8 ∧ 7 < devA.toList.length ∧
    crc8 0x00#8 (devA.toList.set 7 0x1E#8) = 0x8C#8 := by decide +kernel

/-- V-S10, and a step from a done session that leaves it done, one that OW_SRST ends, one that a reset ends. -/
theorem witness_OwSnextDonePath :
    let s : State := { runState 0x0009#16 [] with done := true, crc := 0x33#8 }
    s.done = true ∧ statusOf (step s) = some 0x1C#8 ∧
    statusOf (step { runState 0x0008#16 [] with done := true }) = some 0x02#8 ∧
    statusOf (step { runState 0x0009#16 [.hardwareReset 0] with done := true }) = some 0x00#8 := by decide

/-- V-S5 and V-S6. -/
theorem witness_OwSnextResetFailurePath :
    let s : State := { State.reset with ld := 9#7, crc := 0x5A#8 }
    s.done = false ∧
    (RefBus.searchBus [] s.trace .presence = true ∧
      (owSnext (RefBus.searchBus []) s).trace = [.rst true true]) ∧
    (RefBus.stuckLow s.trace .idle = false ∧ (owSnext RefBus.stuckLow s).trace = [.rst false false]) := by
  decide

/-- The hypotheses of a pass with its four ends: FOUND, the CRC failure of V-S7 (CRC 0x0E) and the abort of V-S8
(68 slots) and V-S9 (11 slots). -/
theorem witness_OwSnextFollowsBitSpec_hypotheses :
    (State.reset.done = false ∧ RefBus.searchBus [devA] State.reset.trace .presence = false ∧
      RefBus.searchBus [devA] State.reset.trace .idle = true) ∧
    RefBus.searchBus [devBad] State.reset.trace .presence = false ∧
    vanishBus [devA] 20 State.reset.trace .presence = false ∧
    vanishBus [devA] 20 State.reset.trace .idle = true := by decide

theorem witness_OwSnextFollowsBitSpec_crc_failure :
    let t := owSnext (RefBus.searchBus [devBad]) State.reset
    t.result = .notFound ∧ t.crc = 0x0E#8 ∧ t.rom = devBad ∧ t.ld = 0#7 ∧ t.trace.length = 201 := by
  decide +kernel

theorem witness_OwSnextFollowsBitSpec_abort :
    let t := owSnext (vanishBus [devA] 20) { State.reset with ld := 9#7 }
    t.result = .notFound ∧ t.crc = 0xE9#8 ∧ t.ld = 0#7 ∧ t.trace.length = 68 ∧
    t.rom = #v[0x28#8, 0x01#8, 0x02#8, 0x00#8, 0x00#8, 0x00#8, 0x00#8, 0x00#8] := by
  decide +kernel

theorem witness_OwSnextFollowsBitSpec_abort_at_once :
    let t := owSnext (vanishBus [devA] 1) { State.reset with ld := 9#7, crc := 0x77#8 }
    t.result = .notFound ∧ t.crc = 0x00#8 ∧ t.ld = 0#7 ∧ t.trace.length = 11 := by
  decide +kernel

theorem witness_SearchPassIsAFunctionOfSessionBufferAndAnswers :
    let s : State := { State.reset with crc := 0x12#8, data := 0x34#8 }
    State.reset.inst = s.inst ∧ State.reset.trace = s.trace ∧ State.reset.ld = s.ld ∧
    State.reset.done = s.done ∧ State.reset.rom = s.rom ∧ State.reset ≠ s := by decide

/-- V-S1 with an old buffer: the pass finds A just the same. -/
theorem witness_FreshPassIgnoresOldBuffer :
    State.reset.ld = 0#7 ∧ (owSnext (RefBus.searchBus [devA]) { State.reset with rom := devB }).rom = devA := by
  decide +kernel

theorem witness_SingleDeviceIsFound :
    RefBus.validId devA = true ∧ State.reset.ld = 0#7 ∧ State.reset.done = false := by decide +kernel

theorem witness_DiscoveryEnumeratesEveryDevice :
    [devA, devB] ≠ [] ∧ [devA, devB].Nodup ∧ ∀ id ∈ [devA, devB], RefBus.validId id = true := by
  have hA : RefBus.validId devA = true := by decide +kernel
  have hB : RefBus.validId devB = true := by decide +kernel
  have hAB : devA ≠ devB := by decide
  refine ⟨List.cons_ne_nil _ _, by simpa using hAB, fun id h => ?_⟩
  rcases List.mem_cons.1 h with rfl | h
  · exact hA
  · rw [List.mem_singleton.1 h]
    exact hB

/-- V-S2: B before A, then DONE = 1. -/
theorem test_discover_two_devices :
    let found := RefBus.discover (RefBus.searchBus [devA, devB]) 2 (owSrst State.reset)
    found.1 = [devB, devA] ∧ found.2.done = true := by decide +kernel

theorem witness_RegisterMap : (7 : Nat) < 8 := by decide

/-- The HOST moves next in `hostState ops []`, where it is IDLE with no turn scheduled. -/
theorem hostMoves_idle (ops : List HostOp) : HostMoves (hostState ops []) [] := .inr ⟨rfl, rfl, rfl⟩

/-- And where its turn is scheduled, whatever runs. -/
theorem hostMoves_busy (w : Word) (ops : List HostOp) :
    HostMoves { runState w [.host] with host := hostOf ops } [] := .inl rfl

theorem witness_CmdWriteStartsCommand :
    (HostMoves (hostState [wr 0x0 0x09#8] []) [] ∧ (hostState [wr 0x0 0x09#8] []).phase = .idle ∧
      (hostOf [wr 0x0 0x09#8]).move = .write .byte 0x0 0x09#8) ∧
    (HostMoves (hostState [wr 0x0 0x09#8] [.host, .engine]) [.engine] ∧
      EngineMoves { hostState [] [.engine] with cmd := 0x09#8, lcmd := 0x0009#16, phase := .running } []) :=
  ⟨⟨hostMoves_idle _, rfl, rfl⟩, .inl rfl, ⟨rfl, .inl rfl⟩⟩

theorem witness_IdleWritesStoreArgOrAreIgnored :
    (HostMoves (hostState [wr 0x1 0xA5#8] []) [] ∧ (hostOf [wr 0x1 0xA5#8]).move = .write .byte 0x1 0xA5#8) ∧
    (HostMoves (hostState [wr 0x2 0xA5#8] [.host]) [] ∧
      (hostOf [wr 0x2 0xA5#8]).move = .write .byte 0x2 0xA5#8) ∧
    (hostOf [wr 0xF 0xA5#8]).move = .write .byte 0xF 0xA5#8 :=
  ⟨⟨hostMoves_idle _, rfl⟩, ⟨.inl rfl, rfl⟩, rfl⟩

theorem witness_IdleReadsReturnTheRegister :
    HostMoves (hostState [rd 0x0 1] []) [] ∧ (hostState [rd 0x0 1] []).phase = .idle ∧
    (hostOf [rd 0x0 1]).move = .read .byte 0x0 1 ∧ (hostOf [rd 0xF 1]).move = .read .byte 0xF 1 ∧
    HostMoves (hostState [rd 0xF 1] [.host]) [] :=
  ⟨hostMoves_idle _, rfl, rfl, rfl, .inl rfl⟩

theorem witness_BusyWritesRefusedBusyReadsHarmless :
    (HostMoves { runState 0x0009#16 [.host] with host := hostOf [wr 0xF 0x00#8] } [] ∧
      ({ runState 0x0009#16 [.host] with host := hostOf [wr 0xF 0x00#8] } : State).phase = .running) ∧
    (hostOf [wr 0xF 0x00#8]).move = .write .byte 0xF 0x00#8 ∧ (hostOf [rd 0x2 1]).move = .read .byte 0x2 1 ∧
    (hostOf [rd 0x0 1]).move = .read .byte 0x0 1 :=
  ⟨⟨hostMoves_busy _ _, rfl⟩, rfl, rfl, rfl⟩

/-- Each clause at its boundary, and the accesses wrong in two ways. -/
theorem witness_WideAccessesRefusedOutsideAccessesFault :
    (HostMoves (hostState [.read .wider (.const 0xF) 0] []) [] ∧
      (hostOf [.read .wider (.const 0xF) 0]).move = .read .wider 0xF 0 ∧
      (hostOf [.write .wider (.const 0x0) (.const 0)]).move = .write .wider 0x0 0x00#8) ∧
    ((hostOf [rd 0x10 0]).move = .read .byte 0x10 0 ∧
      (hostOf [.write .wider (.const 0x10) (.const 0)]).move = .write .wider 0x10 0x00#8) ∧
    stopOf (step { runState 0x0009#16 [.host] with host := hostOf [.write .wider (.const 0xF) (.const 0)] }) =
      some (.inr .wideAccess) ∧
    stopOf (step (hostState [.write .wider (.const 0x10) (.const 0)] [])) = some (.inl .outsideWindow) :=
  ⟨⟨hostMoves_idle _, rfl, rfl⟩, ⟨rfl, rfl⟩, by decide, by decide⟩

theorem witness_OwWaitPollsUntilBusyIsZero :
    (HostMoves (hostState [.wait] []) [] ∧ (hostState [.wait] []).phase = .idle ∧ (hostOf [.wait]).move = .poll) ∧
    (HostMoves { runState 0x0009#16 [.host] with host := hostOf [.wait] } [] ∧
      ({ runState 0x0009#16 [.host] with host := hostOf [.wait] } : State).phase = .running) :=
  ⟨⟨hostMoves_idle _, rfl, rfl⟩, hostMoves_busy _ _, rfl⟩

/-- A command with an operand taken from `hmem`, one with a literal, and one without an operand. -/
theorem witness_HostCommandRunsTheInstruction :
    (let s : State := { State.reset with
      host := { hostOf (.wait :: commandLine .owWbyte (.mem (.const 8)) ++ [rd 0x2 1]) with
        pc := 1, mem := [(8, 0x28)] } }
    s.phase = .idle ∧ s.schedule = [] ∧
      s.host.program.drop s.host.pc = commandLine .owWbyte (.mem (.const 8)) ++ [rd 0x2 1] ∧
      (s.host.eval (.mem (.const 8))).setWidth 8 = 0x28#8 ∧ operandByte (.owWbyte 0x28#8) = some 0x28#8) ∧
    ((HostState.eval (hostOf []) (.byte 0x01#8)).setWidth 8 = 0x01#8 ∧ operandByte (.owWbit true) = some 0x01#8) ∧
    (commandLine .owSnext (.const 0) = [wr 0x0 0x09#8, .wait] ∧ operandByte .owSnext = none) := by decide

theorem witness_HardwareResetGivesTheResetState :
    (hostState [] [.hardwareReset 0]).schedule = [.hardwareReset 0] ∧
    (hostState [] [.hardwareReset 0]).phase = .idle ∧
    (runState 0x0009#16 [.hardwareReset 0]).phase = .running := by decide

theorem witness_HardwareResetAbandonsTheCommand :
    (runState 0xF004#16 [.hardwareReset 8]).phase = .running ∧
    (runState 0xF004#16 [.hardwareReset 8]).schedule = [.hardwareReset 8] ∧
    traceOf (step (runState 0xF004#16 [.hardwareReset 7])) =
      some [.w false, .w false, .w false, .w false, .w true, .w true, .w true, .abort] := by decide

/-- A running command whose step answers a next state, from a state that meets the invariant: the witness of every
statement about one step. -/
theorem witness_StepKeepsInvariant :
    Inv (runState 0x5A06#16 []) ∧ step (runState 0x5A06#16 []) =
      .next { State.reset with
        cmd := 0x06#8, arg := 0x5A#8, lcmd := 0x5A06#16, crc := 0x5A#8, result := .ok } :=
  ⟨witness_running_inv _ _, rfl⟩

theorem witness_TraceIsNeverShortened :
    traceOf (step { runState 0x0102#16 [] with trace := [.abort] }) = some [.abort, .w true] := by decide

theorem witness_CommandsWriteOnlyTheirState :
    nextOf (exec (.owWbit true) State.reset) =
      some { State.reset with result := .ok, trace := [.w true] } ∧
    decode (runState 0x000A#16 []).lcmd = .illegal .opcode := by decide

theorem witness_ResultsChangeOnlyAtCompletionOrReset :
    statusOf (step (hostState [wr 0x1 0xA5#8] [])) = some 0x00#8 ∧
    statusOf (step (runState 0x0008#16 [])) = some 0x02#8 ∧
    statusOf (step (runState 0x0008#16 [.hardwareReset 0])) = some 0x00#8 := by decide

theorem witness_PhaseChangesOnlyByCmdWriteCompletionOrReset :
    statusOf (step (hostState [wr 0x0 0x08#8] [])) = some 0x01#8 ∧
    statusOf (step (runState 0x0008#16 [])) = some 0x02#8 := by decide

/-- DONE changes by OW_SRST, by a reset, and by OW_SNEXT's FOUND. -/
theorem witness_DoneIsWrittenOnlyByThree :
    statusOf (step { runState 0x0008#16 [] with done := true }) = some 0x02#8 ∧
    statusOf (step { hostState [] [.hardwareReset 0] with done := true }) = some 0x00#8 ∧
    nextOf (exec .owSrst { State.reset with done := true }) = some { State.reset with result := .ok } := by decide

theorem witness_DutifulHostNeverStops :
    HostDuty (hostState [] []) ∧ HostDuty (hostState [rd 0xF 1] []) ∧
    HostDuty (hostState [wr 0x0 0x01#8] [.engine]) ∧
    HostDuty { runState 0x0009#16 [.host] with host := hostOf [.wait] } ∧ HostDuty (hostState [gotoOp 0] []) :=
  ⟨trivial, ⟨rfl, by decide⟩, ⟨rfl, by decide, rfl⟩, trivial, trivial⟩

/-- The two statuses after instance 1 runs OW_SRST. -/
def secondStatus : Host.Outcome (List State) Fault Refusal → List Byte
  | .next all => all.map statusByte
  | .fault _ => []
  | .refused _ => []

theorem witness_InstancesShareNoState :
    secondStatus (stepInstance 1 [State.reset, runState 0x0008#16 []]) = [0x00#8, 0x02#8] ∧
    (instancesReset 2).map State.inst = [0, 1] := by decide

theorem witness_NominalDurations :
    (List.replicate 200 (BusEvent.r true)).length = 200 ∧
    ∀ e ∈ List.replicate 200 (BusEvent.r true), ∃ b, e = .w b ∨ e = .r b := by
  refine ⟨List.length_replicate, fun e he => ⟨true, .inr ?_⟩⟩
  exact List.eq_of_mem_replicate he

theorem witness_ByteCommandsAreEightBitCommands : (7 : Nat) < 8 := by decide

theorem witness_reset_meets_invariant_after_a_full_pass :
    let t := owSnext (RefBus.searchBus [devA]) State.reset
    t.result = .found ∧ crc8 0x00#8 t.rom.toList = 0x00#8 ∧ t.done = decide (t.ld = 0#7) := by
  decide +kernel

/-- Each operation at its place, with the branch taken and not taken; and a HOST whose next move is its own. -/
theorem witness_HostControlFlow :
    (hostOf [.set 0 (.const 5)]).program[0]? = some (.set 0 (.const 5)) ∧
    (hostOf [.store (.const 8) (.const 5)]).program[0]? = some (.store (.const 8) (.const 5)) ∧
    (hostOf [gotoOp 3]).eval (.const 1) ≠ 0 ∧ (hostAt discover 9 [(1, 5)]).eval (.bin .ne (.var 1) (.const 5)) = 0 ∧
    (hostOf [.wait]).program[0]? = some .wait ∧ (hostOf []).program.length ≤ (hostOf []).pc ∧
    (hostOf [gotoOp 3]).move = .own (hostAt [gotoOp 3] 3 []) ∧ (hostOf []).move = .ended := by decide

theorem witness_HostReadsFeedItsControlFlow :
    (HostMoves (hostState [rd 0xF 1] []) [] ∧ (hostState [rd 0xF 1] []).phase = .idle ∧ (hostOf [rd 0xF 1]).wf ∧
      (hostOf [rd 0xF 1]).move = .read .byte 0xF 1) ∧
    ((hostAt discover 13 [(0, 1), (2, 7), (3, 0x9E)]).wf ∧ (hostAt discover 13 []).program[13]? =
      some (.store (.bin .add (.bin .mul (.const 8) (.var 0)) (.var 2)) (.var 3))) :=
  ⟨⟨hostMoves_idle _, rfl, by decide, rfl⟩, by decide, rfl⟩

theorem witness_OwRsltReadsTheResult :
    (hostState (owRslt 4 ++ [.wait]) []).phase = .idle ∧ (hostState (owRslt 4 ++ [.wait]) []).schedule = [] ∧
    (hostOf (owRslt 4 ++ [.wait])).wf ∧
    (hostOf (owRslt 4 ++ [.wait])).program.drop 0 = owRslt 4 ++ [.wait] := by decide

/-- The run that ends at once; a run that ends after its one access, and not before; a state past its end; a run that
is refused. -/
theorem witness_RunEndIsUniqueAndFinal :
    RunEndsAt State.reset State.reset 0 ∧
    (RunEndsAt (hostState [wr 0x1 0xA5#8] [])
      { State.reset with arg := 0xA5#8, host := hostAt [wr 0x1 0xA5#8] 1 [] } 1) ∧
    (State.reset.RunEnded ∧ ∀ slots turns, State.reset.schedule ≠ .hardwareReset slots :: turns) ∧
    ((hostState [] []).host.program.length ≤ (hostState [] []).host.pc ∧ (hostState [] []).phase = .idle) ∧
    ∀ u, Host.Core.run Sys2Proof.core 1 (hostState [.read .wider (.const 0) 0] []) ≠ .next u := by
  have ended : State.reset.RunEnded := ⟨finished_of_ended rfl, rfl⟩
  refine ⟨⟨rfl, ended, fun j u h => by omega⟩, ⟨rfl, ⟨finished_of_ended rfl, rfl⟩, fun j u h hr he => ?_⟩,
    ⟨ended, fun _ _ h => nomatch h⟩, ⟨Nat.le_refl 0, rfl⟩, fun u h => nomatch h⟩
  obtain rfl : j = 0 := by omega
  cases hr
  exact absurd (he.1.accesses) (by decide)

end Sys2Proof.Tests
end

/-! The HOST program and the run: what a read and a store leave in the HOST (O54), the end of a run (O57), the HOST's
own moves (O53) and the launch (O56). -/

namespace Sys2Proof.Machine

/-! ### The HOST's variables and memory after an access -/

/-- A variable made `v` holds `v`, and every other variable what it held. -/
theorem eval_var_assign {h : HostState} (hw : h.wf) (x y : Nat) (v : HostWord) :
    (h.assign x v).eval (.var y) = if y = x then v else h.eval (.var y) :=
  cellGet_cellPut x y v hw.1

/-- A cell made `v` holds `v`, and every other cell what it held. -/
theorem eval_mem_storeCell {h : HostState} (hw : h.wf) (a b v : HostWord) :
    (h.storeCell b.toNat v).eval (.mem (.const a)) = if a = b then v else h.eval (.mem (.const a)) := by
  have cells := cellGet_cellPut b.toNat a.toNat v hw.2
  rwa [if_congr BitVec.toNat_inj rfl rfl] at cells

/-- While BUSY = 0 a byte read in the window leaves the register's value in its variable (20_memory.md R67). -/
theorem hostTurn_read_idle {s : State} {off x : Nat} (hp : s.phase = .idle) (ho : off < 16)
    (hr : s.host.move = .read .byte off x) :
    hostTurn s = .next (deliverRead off { s with host := s.host.receive x (regRead s off) }) := by
  rw [hostTurn_read hr, hostRead_byte x s ho, readValue_idle hp]

/-- The step of a HOST that reads a byte of the window while BUSY = 0. -/
theorem step_read_idle {s : State} {turns : List Turn} {off x : Nat} (hm : HostMoves s turns) (hp : s.phase = .idle)
    (ho : off < 16) (hr : s.host.move = .read .byte off x) :
    step s = .next (deliverRead off
      { s with schedule := turns, host := s.host.receive x (regRead s off) }) :=
  (step_hostMoves hm).trans (hostTurn_read_idle (s := { s with schedule := turns }) hp ho hr)

/-- Settles O54: the step of a read, and the HOST's move at a store, with the cell laws. -/
theorem hostReadsFeedItsControlFlow : Obligations.HostReadsFeedItsControlFlow := by
  refine ⟨fun s turns off x hm hp ho hw hr => ⟨_, step_read_idle hm hp ho hr, ?_, fun y hy => ?_, rfl, rfl, rfl⟩,
    fun h addr e hw hg => ⟨_, move_of_getElem hg, fun a => eval_mem_storeCell hw a _ _, rfl, rfl, rfl⟩⟩
  · exact (eval_var_assign hw x x _).trans (if_pos rfl)
  · exact (eval_var_assign hw x y _).trans (if_neg hy)

/-! ### The end of a run -/

/-- A run that ends after `k` steps does not end after more. -/
theorem RunEndsAt.not_lt {s t t' : State} {k k' : Nat} (h : RunEndsAt s t k) (h' : RunEndsAt s t' k') : ¬ k < k' := by
  obtain ⟨run, ended, -⟩ := h
  obtain ⟨-, -, first⟩ := h'
  exact fun hlt => first k t hlt run ended

/-- A run has at most one end. -/
theorem RunEndsAt.unique {s t t' : State} {k k' : Nat} (h : RunEndsAt s t k) (h' : RunEndsAt s t' k') :
    k = k' ∧ t = t' := by
  obtain rfl : k = k' := Nat.le_antisymm (Nat.not_lt.1 (h'.not_lt h)) (Nat.not_lt.1 (h.not_lt h'))
  exact ⟨rfl, Host.Outcome.next.inj (h.1.symm.trans h'.1)⟩

/-- A run that has stopped by step `j` has no end from there on. -/
theorem not_runEndsAt_of_stopped {s t : State} {j k : Nat} (hjk : j ≤ k)
    (stopped : ∀ u, Host.Core.run Sys2Proof.core j s ≠ .next u) : ¬ RunEndsAt s t k := by
  obtain ⟨b, rfl⟩ := Nat.exists_eq_add_of_le hjk
  exact fun h => coreRun_stopped Sys2Proof.core b j s stopped t h.1

/-- A finished HOST's turn changes nothing but the HOST, which stays finished. -/
theorem hostTurn_finished {s : State} (hf : s.host.Finished) :
    ∃ h' : HostState, h'.Finished ∧ hostTurn s = .next { s with host := h' } := by
  rcases hf.move_cases with hm | ⟨h', hm⟩
  · exact ⟨s.host, hf, hostTurn_ended hm⟩
  · exact ⟨h', hf.own hm, hostTurn_own hm⟩

/-- When a finished HOST moves next, the step moves nothing but the schedule and the HOST, which stays finished. -/
theorem step_finished {s : State} {turns : List Turn} (hf : s.host.Finished) (hm : HostMoves s turns) :
    ∃ h' : HostState, h'.Finished ∧ step s = .next { s with schedule := turns, host := h' } := by
  rw [step_hostMoves hm]
  exact hostTurn_finished (s := { s with schedule := turns }) hf

/-- A turn of the ENGINE while IDLE changes nothing (70_reset_and_hazards.md R243). -/
theorem engineTurn_idle {s : State} (hp : s.phase = .idle) : engineTurn s = .next s := by
  simp [engineTurn, busy_of_idle hp]

/-- From the end of a run, a step that is not a hardware reset moves nothing but the schedule and the HOST, which
stays finished. -/
theorem step_runEnded {s : State} (he : s.RunEnded)
    (hr : ∀ slots turns, s.schedule ≠ .hardwareReset slots :: turns) :
    ∃ (turns : List Turn) (h' : HostState), h'.Finished ∧
      step s = .next { s with schedule := turns, host := h' } := by
  obtain ⟨hf, hp⟩ := he
  match hs : s.schedule with
  | [] => exact ⟨[], step_finished hf (.inr ⟨hs, rfl, hp⟩)⟩
  | .host :: turns => exact ⟨turns, step_finished hf (.inl hs)⟩
  | .engine :: turns => exact ⟨turns, s.host, hf, (step_scheduled hs).trans (engineTurn_idle hp)⟩
  | .hardwareReset slots :: turns => exact absurd hs (hr slots turns)

/-- Settles O57: no run ends twice or past a stop, and an ended state's step moves nothing that is observed. -/
theorem runEndIsUniqueAndFinal : Obligations.RunEndIsUniqueAndFinal := by
  refine ⟨fun s t t' k k' => RunEndsAt.unique, fun s t j k => not_runEndsAt_of_stopped, fun s he hr => ?_,
    fun s hl hp => ⟨finished_of_ended (move_of_length_le hl), hp⟩⟩
  obtain ⟨turns, h', hf', ht⟩ := step_runEnded he hr
  exact ⟨_, ht, ⟨hf', he.2⟩, rfl⟩

/-! ### The HOST's own moves -/

/-- A move of the HOST's own changes the HOST and the schedule alone. -/
theorem step_own {s : State} {turns : List Turn} {h : HostState} (hm : HostMoves s turns)
    (ho : s.host.move = .own h) : step s = .next { s with schedule := turns, host := h } :=
  (step_hostMoves hm).trans (hostTurn_own ho)

/-- The turn of a HOST that has ended changes the schedule alone. -/
theorem step_ended {s : State} {turns : List Turn} (hm : HostMoves s turns) (he : s.host.move = .ended) :
    step s = .next { s with schedule := turns } :=
  (step_hostMoves hm).trans (hostTurn_ended he)

/-- A branch is taken where its condition's value is not 0, and else the HOST goes on. -/
theorem move_branch {h : HostState} {c : HostExpr} {d : Int} (hg : h.program[h.pc]? = some (.branch c d)) :
    h.move = .own (if h.eval c ≠ 0 then h.jump d else h.goOn) :=
  move_of_getElem hg

/-- Settles O53: the operation at the HOST's place, and the step of a HOST that makes its own move or has ended. -/
theorem hostControlFlow : Obligations.HostControlFlow := by
  refine ⟨fun h x e => move_of_getElem, fun h addr e => move_of_getElem,
    fun h c d hg => ⟨fun hc => ?_, fun hc => ?_⟩,
    fun h width off v => move_of_getElem, fun h width off x => move_of_getElem,
    fun h => ⟨move_of_getElem, move_of_length_le⟩, fun s turns hm => ⟨fun h => step_own hm, step_ended hm⟩⟩
  · rw [move_branch hg, if_pos hc]; rfl
  · rw [move_branch hg, if_neg (not_not.2 hc)]; rfl

/-! ### The launch -/

/-- A byte of the buffer after reset is 0x00. -/
theorem romByte_zeroRom {j : Nat} (hj : j < 8) : romByte State.zeroRom j = 0x00#8 := by
  rw [romByte_of_lt _ _ hj, State.zeroRom, Vector.getElem_replicate]

/-- The state after reset has every reset value (70_reset_and_hazards.md R240). -/
theorem isResetState_reset : IsResetState State.reset where
  cmd := rfl
  arg := rfl
  busy := rfl
  result := rfl
  done := rfl
  data := rfl
  crc := rfl
  ld := rfl
  rom := fun _ => romByte_zeroRom
  released := rfl
  status := rfl

/-- The bus trace and the model's own fields are no part of what a reset state is. -/
theorem isResetState_withTraceAndOwnFields {s : State} (h : IsResetState s) (trace : List BusEvent) (inst : Nat)
    (host : HostState) (schedule : List Turn) (reads : List Byte) (draws : Nat) :
    IsResetState { s with
      trace := trace, inst := inst, host := host, schedule := schedule, reads := reads, draws := draws } :=
  ⟨h.cmd, h.arg, h.busy, h.result, h.done, h.data, h.crc, h.ld, h.rom, h.released, h.status⟩

/-- Launch keeps every register (00_scope.md R13). -/
theorem regRead_launch (s : State) (program : List HostOp) (mem : List (Nat × HostWord)) (turns : List Turn) :
    regRead (launch s program mem turns) = regRead s := rfl

/-- Settles O56: launch writes the HOST, the schedule, the reads and the trace alone. -/
theorem launchTakesAnyStateAndProgram : Obligations.LaunchTakesAnyStateAndProgram :=
  ⟨fun s program mem turns => ⟨rfl, rfl, rfl, rfl, fun _ => rfl,
      congrArg (List.range 16).map (regRead_launch s program mem turns), rfl⟩,
    fun _ _ _ => isResetState_withTraceAndOwnFields isResetState_reset _ _ _ _ _ _⟩

end Sys2Proof.Machine

/-! The state's own rules (10_state.md): the bus trace (O44), who writes the results (O47), the phase (O48) and DONE
(O49), and the register map with the fields of STATUS (O31, O32). First what a command and a step can do, said once. -/

namespace Sys2Proof.Machine

/-! ### How OW_SNEXT ends -/

/-- The five ends of OW_SNEXT (43_romsearch.md R182 to R186), each with what led to it. A walk's facts are those of
`Walk.Follows`. -/
inductive SnextEnd (o : Oracle) (s : State) : State → Prop where
  | alreadyDone (done : s.done = true) : SnextEnd o s (complete .notFound s)
  | resetFailed (fresh : s.done = false) (failed : ¬ (o s.trace .presence = false ∧ o s.trace .idle = true)) :
      SnextEnd o s (complete .notFound (slotReset o s).2)
  | aborted (fresh : s.done = false) (present : o s.trace .presence = false ∧ o s.trace .idle = true)
      {n : Nat} {w : Walk} (completes : SearchSpec.Completes o s n) (early : n < 64) (walk : w.Follows o s n) :
      SnextEnd o s (complete .notFound (setLd 0#7 { w.st with trace := w.st.trace ++ [.r true, .r true] }))
  | crcFailed (fresh : s.done = false) (present : o s.trace .presence = false ∧ o s.trace .idle = true)
      {w : Walk} (completes : SearchSpec.Completes o s 64) (walk : w.Follows o s 64) (crc : w.st.crc ≠ 0x00#8) :
      SnextEnd o s (complete .notFound (setLd 0#7 w.st))
  | found (fresh : s.done = false) (present : o s.trace .presence = false ∧ o s.trace .idle = true)
      {w : Walk} (completes : SearchSpec.Completes o s 64) (walk : w.Follows o s 64) (crc : w.st.crc = 0x00#8) :
      SnextEnd o s (complete .found (setDone (doneOf w.marker) (setLd (BitVec.ofNat 7 w.marker) w.st)))

/-- OW_SNEXT on any BUS ends in one of the five ways (43_romsearch.md R175). -/
theorem owSnext_ends (o : Oracle) (s : State) : SnextEnd o s (owSnext o s) := by
  rw [owSnext_eq]
  split
  next done => exact .alreadyDone done
  next fresh =>
    have fresh : s.done = false := Bool.eq_false_iff.2 fresh
    split
    next failed => exact .resetFailed fresh (mt (resetOutcome_eq_presence _ _).2 failed)
    next present =>
      have present := (resetOutcome_eq_presence _ _).1 (not_not.1 present)
      rw [present.1, present.2]
      obtain ⟨n, -, atMost, goesOn, w, walk, ⟨early, stop, hb⟩ | ⟨rfl, hb⟩⟩ :=
        searchBits_follows o s 64 _ 0 (startWalk_follows o s _ rfl) rfl
      · rw [searchPass, hb]
        exact .aborted fresh present ⟨atMost, goesOn, fun _ => stop⟩ early walk
      · have completes : SearchSpec.Completes o s 64 := ⟨atMost, goesOn, fun h => absurd h (lt_irrefl 64)⟩
        rw [searchPass, hb, finishPass]
        split
        next crc => exact .crcFailed fresh present completes walk crc
        next crc => exact .found fresh present completes walk (not_not.1 crc)

/-- The completed bits of a pass append to the trace (43_romsearch.md R179). -/
theorem trace_prefix_traceAfter (o : Oracle) (s : State) (k : Nat) : s.trace <+: SearchSpec.traceAfter o s k := by
  induction k with
  | zero => exact (List.prefix_append _ _).trans (List.prefix_append _ _)
  | succ k ih => exact ih.trans (List.prefix_append _ _)

/-- A walk appends to the trace. -/
theorem Walk.Follows.trace_prefix {w : Walk} {o : Oracle} {s : State} {k : Nat} (h : w.Follows o s k) :
    s.trace <+: w.st.trace :=
  h.trace ▸ trace_prefix_traceAfter o s k

/-- A walk does not touch DONE (10_state.md R29). -/
theorem Walk.Follows.done {w : Walk} {o : Oracle} {s : State} {k : Nat} (h : w.Follows o s k) :
    w.st.done = s.done := by
  rw [h.rest]

/-- A marker of at most 64 survives its 7 bits in LD, so DONE can be read off LD (43_romsearch.md R184). -/
theorem Walk.Follows.doneOf_marker {w : Walk} {o : Oracle} {s : State} {k : Nat} (h : w.Follows o s k) (hk : k ≤ 64) :
    doneOf w.marker = decide (BitVec.ofNat 7 w.marker = 0#7) := by
  have le : w.marker ≤ 64 := h.marker ▸ (marker_le o s k).trans hk
  have ld_zero_iff : BitVec.ofNat 7 w.marker = 0#7 ↔ w.marker = 0 := by
    rw [← BitVec.toNat_inj, BitVec.toNat_ofNat, BitVec.toNat_ofNat]
    omega
  rw [decide_eq_decide.2 ld_zero_iff]
  rfl

/-- OW_SNEXT completes. -/
theorem SnextEnd.phase {o : Oracle} {s t : State} (h : SnextEnd o s t) : t.phase = .idle := by
  cases h <;> rfl

/-- OW_SNEXT only appends to the trace (10_state.md R41). -/
theorem SnextEnd.trace_prefix {o : Oracle} {s t : State} (h : SnextEnd o s t) : s.trace <+: t.trace := by
  cases h with
  | alreadyDone => exact List.prefix_rfl
  | resetFailed => exact List.prefix_append _ _
  | aborted _ _ _ _ walk => exact walk.trace_prefix.trans (List.prefix_append _ _)
  | crcFailed _ _ _ walk => exact walk.trace_prefix
  | found _ _ _ walk => exact walk.trace_prefix

/-- OW_SNEXT writes DONE on FOUND alone, as LD = 0 (10_state.md R29, 43_romsearch.md R184). -/
theorem SnextEnd.done_eq {o : Oracle} {s t : State} (h : SnextEnd o s t) :
    t.done = if t.result = .found then decide (t.ld = 0#7) else s.done := by
  cases h with
  | alreadyDone => rfl
  | resetFailed => rfl
  | aborted _ _ _ _ walk => exact walk.done
  | crcFailed _ _ _ walk => exact walk.done
  | found _ _ _ walk => exact walk.doneOf_marker le_rfl

/-! ### What a command does -/

/-- The state in which a command completes, on its own BUS (40_buslink.md R104). -/
def commandEnd (s : State) : Instr → State
  | .owReset => owReset (busOracle s) s
  | .owWbit b => owWbit b s
  | .owRbit => owRbit (busOracle s) s
  | .owWbyte v => owWbyte v s
  | .owRbyte => owRbyte (busOracle s) s
  | .owCrcld v => owCrcld v s
  | .owCrcup v => owCrcup v s
  | .owSrst => owSrst s
  | .owSnext => owSnext (busOracle s) s

/-- Every command answers a next state (60_exceptions.md R210). -/
theorem exec_eq_next (i : Instr) (s : State) : exec i s = .next (commandEnd s i) := by
  cases i <;> rfl

/-- Every command completes (60_exceptions.md R210). -/
theorem commandEnd_phase (i : Instr) (s : State) : (commandEnd s i).phase = .idle := by
  cases i with
  | owSnext => exact (owSnext_ends _ s).phase
  | _ => rfl

/-- Every command only appends to the trace (10_state.md R41). -/
theorem commandEnd_trace_prefix (i : Instr) (s : State) : s.trace <+: (commandEnd s i).trace := by
  cases i with
  | owReset => exact List.prefix_append _ _
  | owWbit b => exact List.prefix_append _ _
  | owRbit => exact List.prefix_append _ _
  | owWbyte v => simp [commandEnd, owWbyte, writeByteSlots_eq]
  | owRbyte => simp [commandEnd, owRbyte, readBits_state]
  | owCrcld v => exact List.prefix_rfl
  | owCrcup v => exact List.prefix_rfl
  | owSrst => exact List.prefix_rfl
  | owSnext => exact (owSnext_ends _ s).trace_prefix

/-- A command other than OW_SRST and OW_SNEXT does not touch DONE (10_state.md R29). -/
theorem commandEnd_done {i : Instr} (s : State) (hr : i ≠ .owSrst) (hn : i ≠ .owSnext) :
    (commandEnd s i).done = s.done := by
  cases i with
  | owSrst => exact absurd rfl hr
  | owSnext => exact absurd rfl hn
  | owWbyte v => simp [commandEnd, owWbyte, writeByteSlots_eq]
  | owRbyte => simp [commandEnd, owRbyte, readBits_state]
  | _ => rfl

/-- The ENGINE's step runs the command in the latch, or completes ILLEGAL (60_exceptions.md R211). -/
theorem engineStep_cases {s t : State} (h : engineStep s = .next t) :
    (∃ i, decode s.lcmd = .command i ∧ t = commandEnd s i) ∨ t = completeIllegal s := by
  unfold engineStep at h
  split at h
  next i hd => exact .inl ⟨i, hd, (Host.Outcome.next.inj ((exec_eq_next i s).symm.trans h)).symm⟩
  next => exact .inr (Host.Outcome.next.inj h).symm

/-- The ENGINE's step always ends IDLE (70_reset_and_hazards.md R243). -/
theorem engineStep_phase {s t : State} (h : engineStep s = .next t) : t.phase = .idle := by
  rcases engineStep_cases h with ⟨i, -, rfl⟩ | rfl
  · exact commandEnd_phase i s
  · rfl

/-- The ENGINE's step only appends to the trace (10_state.md R41). -/
theorem engineStep_trace_prefix {s t : State} (h : engineStep s = .next t) : s.trace <+: t.trace := by
  rcases engineStep_cases h with ⟨i, -, rfl⟩ | rfl
  · exact commandEnd_trace_prefix i s
  · exact List.prefix_rfl

/-- An ENGINE's step that changes DONE ran OW_SRST, or OW_SNEXT to FOUND (10_state.md R29). -/
theorem engineStep_done_changes {s t : State} (h : engineStep s = .next t) (hd : t.done ≠ s.done) :
    decode s.lcmd = .command .owSrst ∨ decode s.lcmd = .command .owSnext ∧ t.result = .found := by
  rcases engineStep_cases h with ⟨i, hi, rfl⟩ | rfl
  · by_cases hr : i = .owSrst
    · exact .inl (hr ▸ hi)
    · by_cases hn : i = .owSnext
      · subst hn
        refine .inr ⟨hi, by_contra fun notFound => hd ?_⟩
        exact (owSnext_ends _ s).done_eq.trans (if_neg notFound)
      · exact absurd (commandEnd_done s hr hn) hd
  · exact absurd rfl hd

/-! ### What a step leaves unchanged -/

/-- The results, the search session, the buffer and the bus stand. -/
structure KeepsResults (s t : State) : Prop where
  result : t.result = s.result
  data : t.data = s.data
  crc : t.crc = s.crc
  ld : t.ld = s.ld
  done : t.done = s.done
  rom : t.rom = s.rom
  trace : t.trace = s.trace
  dqDrive : t.dqDrive = s.dqDrive

/-- A HOST write stores CMD and starts a command, stores ARG, or is ignored (20_memory.md R64, R65). -/
theorem regWrite_cases (off : Nat) (v : Byte) (s : State) :
    (off = 0x0 ∧ regWrite off v s = writeCmd v s) ∨ regWrite off v s = writeArg v s ∨ regWrite off v s = s := by
  unfold regWrite
  split
  next h => exact .inl ⟨h, rfl⟩
  next =>
    split
    · exact .inr (.inl rfl)
    · exact .inr (.inr rfl)

/-- No HOST write touches a result or the bus (20_memory.md R64, R65). -/
theorem regWrite_keepsResults (off : Nat) (v : Byte) (s : State) : KeepsResults s (regWrite off v s) := by
  rcases regWrite_cases off v s with ⟨-, h⟩ | h | h <;> rw [h]
  · exact ⟨rfl, rfl, rfl, rfl, rfl, rfl, rfl, rfl⟩
  · exact ⟨rfl, rfl, rfl, rfl, rfl, rfl, rfl, rfl⟩
  · exact ⟨rfl, rfl, rfl, rfl, rfl, rfl, rfl, rfl⟩

/-- A step is the ENGINE's, or a hardware reset, or leaves every result and the bus unchanged (10_state.md R27). -/
theorem step_engine_or_reset_or_keepsResults {s t : State} (h : step s = .next t) :
    (s.phase = .running ∧ engineStep { s with schedule := s.schedule.tail } = .next t) ∨
    (∃ slots turns, s.schedule = .hardwareReset slots :: turns ∧
      t = hardwareReset slots { s with schedule := turns }) ∨
    KeepsResults s t := by
  rcases step_cases h with engine | reset | ⟨off, h', -, -, -, rfl⟩ | ⟨off, v, -, -, -, rfl⟩ | ⟨h', -, rfl⟩
  · exact .inl engine
  · exact .inr (.inl reset)
  · exact .inr (.inr ⟨rfl, rfl, rfl, rfl, rfl, rfl, rfl, rfl⟩)
  · exact .inr (.inr { regWrite_keepsResults off v { s with schedule := s.schedule.tail, host := s.host.goOn } with })
  · exact .inr (.inr ⟨rfl, rfl, rfl, rfl, rfl, rfl, rfl, rfl⟩)

/-- Settles O44: a command and a hardware reset append to the trace, and every other step leaves it. -/
theorem traceIsNeverShortened : Obligations.TraceIsNeverShortened := by
  intro s t h
  rcases step_engine_or_reset_or_keepsResults h with ⟨-, engine⟩ | ⟨slots, turns, -, rfl⟩ | keeps
  · exact (engineStep_trace_prefix engine :)
  · exact List.prefix_append _ _
  · exact keeps.trace ▸ List.prefix_rfl

/-- Settles O47: the ENGINE's step is a completion, and every step but it and a reset keeps the results. -/
theorem resultsChangeOnlyAtCompletionOrReset : Obligations.ResultsChangeOnlyAtCompletionOrReset := by
  intro s t h
  rcases step_engine_or_reset_or_keepsResults h with ⟨running, engine⟩ | ⟨slots, turns, reset, -⟩ | keeps
  · exact .inl ⟨running, engineStep_phase engine⟩
  · exact .inr (.inl ⟨slots, turns, reset⟩)
  · exact .inr (.inr ⟨keeps.result, keeps.data, keeps.crc, keeps.ld, keeps.done, keeps.rom, keeps.trace,
      keeps.dqDrive⟩)

/-- Settles O49: what the three writers leave in DONE, and that no other command and no HOST's turn writes it. -/
theorem doneIsWrittenOnlyByThree : Obligations.DoneIsWrittenOnlyByThree := by
  refine ⟨fun s t h => ?_, fun s t h => ?_, fun _ _ => rfl, fun s t h changed => ?_⟩
  · obtain rfl := Host.Outcome.next.inj h
    exact (owSnext_ends _ s).done_eq
  · obtain rfl := Host.Outcome.next.inj h
    rfl
  · rcases step_engine_or_reset_or_keepsResults h with ⟨running, engine⟩ | ⟨slots, turns, reset, -⟩ | keeps
    · rcases engineStep_done_changes engine changed with srst | ⟨snext, found⟩
      · exact .inr (.inl ⟨running, srst⟩)
      · exact .inr (.inr ⟨running, snext, found⟩)
    · exact .inl ⟨slots, turns, reset⟩
    · exact absurd keeps.done changed

/-! ### The phase -/

/-- A step from IDLE to RUNNING is a HOST byte write of CMD, which latches ARG and the byte (20_memory.md R64). -/
theorem step_starts_command {s t : State} (h : step s = .next t) (idle : s.phase = .idle)
    (running : t.phase = .running) :
    ∃ c, s.host.move = .write .byte 0x0 c ∧ t.cmd = c ∧ t.lcmd = commandWord s.arg c := by
  have still : t.phase ≠ .idle := by rw [running]; decide
  rcases step_cases h with
    ⟨busy, -⟩ | ⟨_, _, -, rfl⟩ | ⟨_, _, -, -, -, rfl⟩ | ⟨off, c, -, -, move, rfl⟩ | ⟨_, -, rfl⟩
  · exact absurd (idle.symm.trans busy) (by decide)
  · exact absurd rfl still
  · exact absurd idle still
  · rcases regWrite_cases off c { s with schedule := s.schedule.tail, host := s.host.goOn } with
      ⟨rfl, hw⟩ | hw | hw <;> rw [hw] at still ⊢
    · exact ⟨c, move, rfl, rfl⟩
    · exact absurd idle still
    · exact absurd idle still
  · exact absurd idle still

/-- A step from RUNNING to IDLE is a hardware reset or the ENGINE's (10_state.md R28). -/
theorem step_ends_command {s t : State} (h : step s = .next t) (running : s.phase = .running)
    (idle : t.phase = .idle) :
    (∃ slots turns, s.schedule = .hardwareReset slots :: turns) ∨
      engineStep { s with schedule := s.schedule.tail } = .next t := by
  have started : s.phase ≠ .idle := by rw [running]; decide
  rcases step_cases h with
    ⟨-, engine⟩ | ⟨slots, turns, reset, -⟩ | ⟨_, _, -, -, -, rfl⟩ | ⟨_, _, -, free, -⟩ | ⟨_, -, rfl⟩
  · exact .inr engine
  · exact .inl ⟨slots, turns, reset⟩
  · exact absurd idle started
  · exact absurd free started
  · exact absurd idle started

/-- Settles O48: the two ways a step can move the phase. -/
theorem phaseChangesOnlyByCmdWriteCompletionOrReset : Obligations.PhaseChangesOnlyByCmdWriteCompletionOrReset :=
  fun _ _ h => ⟨step_starts_command h,
    fun running idle => (step_ends_command h running idle).imp_right fun engine => ⟨_, rfl, engine⟩⟩

/-! ### The register map and STATUS -/

/-- LASTDISC is LD with a 0 above it (10_state.md R32). -/
theorem lastdiscByte_eq (s : State) : lastdiscByte s = s.ld.setWidth 8 :=
  (BitVec.setWidth_eq_append (by decide)).symm

/-- ROM[j] stands at offset 0x8 + j (10_state.md R34). -/
theorem regRead_rom (s : State) (j : Nat) : regRead s (0x8 + j) = romByte s.rom j := by
  simp [regRead, show ∀ n < 8, 8 + j ≠ n by omega]

/-- Settles O31: the map's rows, of which LASTDISC and the buffer need a lemma. -/
theorem registerMap : Obligations.RegisterMap := fun s =>
  ⟨rfl, rfl, rfl, rfl, rfl, lastdiscByte_eq s, rfl, rfl, fun j hj => (regRead_rom s j).trans (romByte_of_lt _ _ hj)⟩

/-- The fields of STATUS put together are read back from their places (10_state.md R25). -/
theorem statusFields_read_back : ∀ (d b : Bool) (code : BitVec 3),
    let status : Byte := 0#3 ++ BitVec.ofBool d ++ code ++ BitVec.ofBool b
    status.getLsbD 0 = b ∧ status.extractLsb' 1 3 = code ∧ status.getLsbD 4 = d ∧ status.extractLsb' 5 3 = 0#3 := by
  decide

/-- Settles O32: STATUS by its fields, and the codes. -/
theorem statusLayout : Obligations.StatusLayout :=
  ⟨fun s => statusFields_read_back s.done (decide (s.phase = .running)) (resultCode s.result),
    rfl, rfl, rfl, rfl, rfl, rfl, rfl, rfl⟩

end Sys2Proof.Machine

/-! The host interface (20_memory.md): the HOST's accesses by offset, width and BUSY (O33 to O37), the command that a
write of CMD starts (O6) and that a program's command line runs (O39), the invariant (O43), and several OWCOREs side by
side (O51). -/

namespace Sys2Proof.Machine

/-! ### The register window -/

/-- A write at offset 0x0 stores CMD and starts the command (20_memory.md R64). -/
theorem regWrite_cmd (v : Byte) (s : State) : regWrite 0x0 v s = writeCmd v s := rfl

/-- A write at offset 0x1 stores ARG (20_memory.md R65). -/
theorem regWrite_arg (v : Byte) (s : State) : regWrite 0x1 v s = writeArg v s := rfl

/-- A write past ARG is ignored (20_memory.md R65). -/
theorem regWrite_ignored {off : Nat} (v : Byte) (s : State) (h : 0x2 ≤ off) : regWrite off v s = s := by
  rw [regWrite, if_neg (by omega), if_neg (by omega)]

/-- While BUSY = 0 a read delivers the register's value, and draws nothing (20_memory.md R67). -/
theorem deliverRead_idle (off : Nat) {s : State} (hp : s.phase = .idle) :
    deliverRead off s = { s with reads := s.reads ++ [regRead s off] } := by
  rw [deliverRead, readValue_idle hp, if_neg (by rw [busy_of_idle hp]; decide)]

/-- While BUSY = 1 a read delivers a drawn value (20_memory.md R66). -/
theorem deliverRead_running (off : Nat) {s : State} (hp : s.phase = .running) :
    deliverRead off s = { s with reads := s.reads ++ [readValue off s], draws := s.draws + 1 } := by
  rw [deliverRead, if_pos (busy_of_running hp)]

/-- While BUSY = 1 a one-byte write in the window is refused (20_memory.md R66). -/
theorem hostWrite_running {off : Nat} (v : Byte) {s : State} (ho : off < 16) (hp : s.phase = .running) :
    hostWrite .byte off v s = .refused .writeWhileBusy := by
  rw [hostWrite, if_neg (by omega), if_neg (by decide), if_pos (busy_of_running hp)]

/-- A read in the window wider than one byte is refused (20_memory.md R62). -/
theorem hostRead_wider {off : Nat} (x : Nat) (s : State) (ho : off < 16) :
    hostRead .wider off x s = .refused .wideAccess := by
  rw [hostRead, if_neg (by omega), if_pos rfl]

/-- A write in the window wider than one byte is refused, whatever BUSY is (20_memory.md R62). -/
theorem hostWrite_wider {off : Nat} (v : Byte) (s : State) (ho : off < 16) :
    hostWrite .wider off v s = .refused .wideAccess := by
  rw [hostWrite, if_neg (by omega), if_pos rfl]

/-- A read outside the window faults, whatever its width (20_memory.md R62). -/
theorem hostRead_outside (width : Width) {off : Nat} (x : Nat) (s : State) (ho : 16 ≤ off) :
    hostRead width off x s = .fault .outsideWindow := by
  rw [hostRead, if_pos ho]

/-- A write outside the window faults, whatever its width and BUSY (20_memory.md R62). -/
theorem hostWrite_outside (width : Width) {off : Nat} (v : Byte) (s : State) (ho : 16 ≤ off) :
    hostWrite width off v s = .fault .outsideWindow := by
  rw [hostWrite, if_pos ho]

/-! ### The step of a HOST access -/

section Accesses

variable {s : State} {turns : List Turn}

/-- When the HOST moves next, the step of a read is `hostRead`. -/
theorem step_read {width : Width} {off x : Nat} (hm : HostMoves s turns) (hr : s.host.move = .read width off x) :
    step s = hostRead width off x { s with schedule := turns } :=
  (step_hostMoves hm).trans (hostTurn_read hr)

/-- When the HOST moves next, the step of a write is `hostWrite`. -/
theorem step_write {width : Width} {off : Nat} {v : Byte} (hm : HostMoves s turns)
    (hw : s.host.move = .write width off v) : step s = hostWrite width off v { s with schedule := turns } :=
  (step_hostMoves hm).trans (hostTurn_write hw)

/-- The step of a HOST that writes a byte of the window while BUSY = 0. -/
theorem step_write_idle {off : Nat} {v : Byte} (hm : HostMoves s turns) (hp : s.phase = .idle) (ho : off < 16)
    (hw : s.host.move = .write .byte off v) :
    step s = .next (regWrite off v { s with schedule := turns, host := s.host.goOn }) :=
  (step_write hm hw).trans (hostWrite_byte (s := { s with schedule := turns }) ho hp)

/-- The step of a HOST that writes CMD while BUSY = 0: it latches and starts the command (20_memory.md R64). -/
theorem step_write_cmd {c : Byte} (hm : HostMoves s turns) (hp : s.phase = .idle)
    (hw : s.host.move = .write .byte 0x0 c) :
    step s = .next (writeCmd c { s with schedule := turns, host := s.host.goOn }) := by
  rw [step_write_idle hm hp (by decide) hw, regWrite_cmd]

/-- The step of a HOST that writes ARG while BUSY = 0 (20_memory.md R65). -/
theorem step_write_arg {v : Byte} (hm : HostMoves s turns) (hp : s.phase = .idle)
    (hw : s.host.move = .write .byte 0x1 v) :
    step s = .next (writeArg v { s with schedule := turns, host := s.host.goOn }) := by
  rw [step_write_idle hm hp (by decide) hw, regWrite_arg]

/-- The step of a HOST that polls at BUSY = 0: STATUS is read and the loop is left (30_encoding.md R91). -/
theorem step_poll_idle (hm : HostMoves s turns) (hp : s.phase = .idle) (hpoll : s.host.move = .poll) :
    step s = .next { s with
      schedule := turns, host := s.host.goOn, reads := s.reads ++ [statusByte s] } := by
  rw [step_hostMoves hm, hostTurn_poll (s := { s with schedule := turns }) hpoll,
    hostPoll_idle (s := { s with schedule := turns }) hp,
    deliverRead_idle 0x2 (s := { s with schedule := turns, host := s.host.goOn }) hp]
  rfl

end Accesses

/-- Settles O33: the HOST's write of CMD, then the ENGINE's step of whatever was latched. -/
theorem cmdWriteStartsCommand : Obligations.CmdWriteStartsCommand :=
  fun _ _ _ hm hp hw => ⟨step_write_cmd hm hp hw, fun _ => step_engineMoves⟩

/-- Settles O34: the write of ARG, and a write past it. -/
theorem idleWritesStoreArgOrAreIgnored : Obligations.IdleWritesStoreArgOrAreIgnored := by
  refine fun s turns v hm hp => ⟨step_write_arg hm hp, fun off hlo hhi hw => ?_⟩
  rw [step_write_idle hm hp (by omega) hw, regWrite_ignored v _ hlo]

/-- Bit 7 of LASTDISC reads 0 (10_state.md R32). -/
theorem lastdiscByte_bit7 (s : State) : (lastdiscByte s).getLsbD 7 = false := by
  simp [lastdiscByte_eq]

/-- Settles O35: the step of an IDLE read, and the zeros of the register map. -/
theorem idleReadsReturnTheRegister : Obligations.IdleReadsReturnTheRegister := by
  refine ⟨fun s turns off x hm hp ho hr => ?_, fun s => ?_⟩
  · rw [step_read_idle hm hp ho hr]
    exact congrArg _ (deliverRead_idle off hp)
  · obtain ⟨-, -, -, reserved⟩ := statusLayout.1 s
    exact ⟨rfl, rfl, reserved, lastdiscByte_bit7 s⟩

/-- Settles O36: the refusal of a write, and a read's drawn value. -/
theorem busyWritesRefusedBusyReadsHarmless : Obligations.BusyWritesRefusedBusyReadsHarmless := by
  refine fun s turns off hm hp ho => ⟨fun v hw => ?_, fun x hr => ⟨readValue off s, ?_, ?_⟩⟩
  · exact (step_write hm hw).trans (hostWrite_running (s := { s with schedule := turns }) v ho hp)
  · rw [step_read hm hr, hostRead_byte x _ ho]
    exact congrArg _ (deliverRead_running off hp)
  · rintro rfl
    exact readValue_status_busy hp

/-- Settles O37: reads and writes too wide for the window, then those outside it. -/
theorem wideAccessesRefusedOutsideAccessesFault : Obligations.WideAccessesRefusedOutsideAccessesFault := by
  refine fun s turns off x v hm => ⟨fun ho access => ?_, fun width ho access => ?_⟩
  · rcases access with hr | hw
    · exact (step_read hm hr).trans (hostRead_wider x _ ho)
    · exact (step_write hm hw).trans (hostWrite_wider v _ ho)
  · rcases access with hr | hw
    · exact (step_read hm hr).trans (hostRead_outside width x _ ho)
    · exact (step_write hm hw).trans (hostWrite_outside width v _ ho)

/-! ### The ENGINE's step -/

/-- The ENGINE's step is exec of the command in the latch (20_memory.md R70). -/
theorem engineStep_command {s : State} {i : Instr} (hd : decode s.lcmd = .command i) : engineStep s = exec i s := by
  rw [engineStep, hd]

/-- When the ENGINE moves next, the step is exec of the command in the latch. -/
theorem step_command {s : State} {turns : List Turn} {i : Instr} (hm : EngineMoves s turns)
    (hd : decode s.lcmd = .command i) : step s = exec i { s with schedule := turns } :=
  (step_engineMoves hm).trans (engineStep_command (s := { s with schedule := turns }) hd)

/-- Settles O6: the ENGINE's step, with the latch decoded. -/
theorem stepRunsDecodedCommand : Obligations.StepRunsDecodedCommand :=
  fun _ _ _ => step_command

/-! ### Which state a command leaves alone -/

/-- OW_SNEXT writes RESULT, BUSY, the session, CRC, the buffer and the bus alone (10_state.md R38). -/
theorem SnextEnd.frame {o : Oracle} {s t : State} (h : SnextEnd o s t) :
    t = { s with
      result := t.result, phase := .idle, done := t.done, crc := t.crc, ld := t.ld, rom := t.rom
      dqDrive := t.dqDrive, trace := t.trace } := by
  cases h with
  | alreadyDone => rfl
  | resetFailed => rfl
  | aborted _ _ _ _ walk => rw [walk.rest]; rfl
  | crcFailed _ _ _ walk => rw [walk.rest]; rfl
  | found _ _ _ walk => rw [walk.rest]; rfl

/-- A command writes RESULT, BUSY, the result registers, the session, the buffer and the bus alone: CMD, ARG, the
latch and the HOST's side stand (10_state.md R38). -/
theorem commandEnd_frame (i : Instr) (s : State) :
    commandEnd s i = { s with
      result := (commandEnd s i).result, phase := .idle, data := (commandEnd s i).data
      crc := (commandEnd s i).crc, ld := (commandEnd s i).ld, done := (commandEnd s i).done
      rom := (commandEnd s i).rom, dqDrive := (commandEnd s i).dqDrive, trace := (commandEnd s i).trace } := by
  cases i with
  | owWbyte v => simp [commandEnd, owWbyte, writeByteSlots_eq, complete]
  | owRbyte => simp [commandEnd, owRbyte, readBits_state, complete, setData]
  | owSnext =>
    have frame := (owSnext_ends (busOracle s) s).frame
    have data : (commandEnd s .owSnext).data = s.data := (congrArg State.data frame :)
    rw [data]
    exact frame
  | _ => rfl

@[simp] theorem commandEnd_host (i : Instr) (s : State) : (commandEnd s i).host = s.host :=
  (congrArg State.host (commandEnd_frame i s) :)

@[simp] theorem commandEnd_schedule (i : Instr) (s : State) : (commandEnd s i).schedule = s.schedule :=
  (congrArg State.schedule (commandEnd_frame i s) :)

/-! ### A command line of a HOST program -/

/-- The word that a command's own operand makes with its CMD byte decodes to it; with no operand, any ARG does
(30_encoding.md R83, R86). -/
theorem decode_commandWord (i : Instr) (arg : Byte) :
    decode (commandWord ((operandByte i).getD arg) (commandByte i)) = .command i := by
  cases i with
  | owWbit b => cases b <;> simp [decode, decodeOpcode, operandByte, bitArg]
  | _ => simp [decode, decodeOpcode, operandByte]

/-- The line of a command without an operand: the write of CMD, then OW_WAIT (30_encoding.md R91). -/
theorem commandLine_of_none {i : Instr} (h : operandByte i = none) (operand : HostExpr) :
    commandLine i.mnemonic operand = [regWriteOp 0x0#8 (.byte (commandByte i)), .wait] := by
  cases i with
  | owReset => rfl
  | owRbit => rfl
  | owRbyte => rfl
  | owSrst => rfl
  | owSnext => rfl
  | _ => cases h

/-- The line of a command with an operand begins with the write of ARG (30_encoding.md R91). -/
theorem commandLine_of_some {i : Instr} {v : Byte} (h : operandByte i = some v) (operand : HostExpr) :
    commandLine i.mnemonic operand =
      [regWriteOp 0x1#8 operand, regWriteOp 0x0#8 (.byte (commandByte i)), .wait] := by
  cases i with
  | owWbit b => rfl
  | owWbyte v => rfl
  | owCrcld v => rfl
  | owCrcup v => rfl
  | _ => cases h

/-- A HOST at a byte write of a program writes the low byte of its value. -/
theorem move_regWriteOp {h : HostState} {off : Byte} {e : HostExpr} {rest : List HostOp}
    (hd : h.program.drop h.pc = regWriteOp off e :: rest) :
    h.move = .write .byte off.toNat ((h.eval e).setWidth 8) := by
  rw [move_of_getElem (getElem_of_drop hd).1]
  show HostMove.write .byte (off.setWidth 64).toNat _ = _
  rw [BitVec.toNat_setWidth_of_le (by decide)]

/-- The low byte of a byte's expression is the byte. -/
theorem eval_byte_low (h : HostState) (v : Byte) : (h.eval (.byte v)).setWidth 8 = v := by
  show (v.setWidth 64).setWidth 8 = v
  rw [BitVec.setWidth_setWidth_of_le _ (by decide), BitVec.setWidth_eq]

/-- From an IDLE state with no turn scheduled, the write of CMD and OW_WAIT run the command that ARG and the byte
decode to: the write, the ENGINE's step, the poll (20_memory.md R64, R70; 30_encoding.md R91). -/
theorem run_issue {s : State} {i : Instr} {c : Byte} {rest : List HostOp} (hp : s.phase = .idle)
    (hs : s.schedule = []) (hd : s.host.program.drop s.host.pc = regWriteOp 0x0#8 (.byte c) :: .wait :: rest)
    (hi : decode (commandWord s.arg c) = .command i) :
    let t := commandEnd (writeCmd c { s with host := s.host.goOn }) i
    Host.Core.run Sys2Proof.core 3 s =
      .next { t with host := s.host.goOn.goOn, reads := t.reads ++ [statusByte t] } := by
  intro t
  have write : step s = .next (writeCmd c { s with host := s.host.goOn }) := by
    rw [step_write_cmd (.inr ⟨hs, rfl, hp⟩) hp ((move_regWriteOp hd).trans (by rw [eval_byte_low]; rfl)), ← hs]
  have complete : step (writeCmd c { s with host := s.host.goOn }) = .next t := by
    rw [step_command (s := writeCmd c { s with host := s.host.goOn }) ⟨rfl, .inr ⟨hs, rfl⟩⟩ hi, ← exec_eq_next,
      ← hs]
    rfl
  have host : t.host = s.host.goOn := commandEnd_host _ _
  have idle : t.phase = .idle := commandEnd_phase _ _
  have free : t.schedule = [] := (commandEnd_schedule _ _).trans hs
  have poll : t.host.move = .poll := by
    rw [host]
    exact move_of_getElem (h := s.host.goOn) (getElem_of_drop (getElem_of_drop hd).2).1
  rw [run_succ 2 write, run_succ 1 complete, run_succ 0 (step_poll_idle (.inr ⟨free, rfl, idle⟩) idle poll), host,
    ← free]
  rfl

/-- Settles O39: with no operand the line is the write of CMD and OW_WAIT; with one, the write of ARG comes first. -/
theorem hostCommandRunsTheInstruction : Obligations.HostCommandRunsTheInstruction := by
  intro i operand s rest hp hs hd value n arg issued
  have decodes : decode issued.lcmd = .command i := decode_commandWord i s.arg
  refine ⟨decodes, commandEnd issued i, exec_eq_next i issued, ?_⟩
  match ho : operandByte i with
  | none =>
    have line := commandLine_of_none ho operand
    rw [line] at hd
    simp only [issued, n, arg, ho, line] at decodes ⊢
    exact run_issue hp hs hd decodes
  | some v =>
    have line := commandLine_of_some ho operand
    rw [line] at hd
    have store : step s = .next (writeArg v { s with host := s.host.goOn }) := by
      rw [step_write_arg (.inr ⟨hs, rfl, hp⟩) hp ((move_regWriteOp hd).trans (by rw [value v ho]; rfl)), ← hs]
    simp only [issued, n, arg, ho, line] at decodes ⊢
    exact (run_succ 3 store).trans
      (run_issue (s := writeArg v { s with host := s.host.goOn }) hp hs (getElem_of_drop hd).2 decodes)

end Sys2Proof.Machine

namespace Sys2Proof

open Sys2Proof.Machine

/-! ### The invariant

A command keeps the part of it that does not speak of RESULT, `Settled`, at each of its slots; its completion then
gives the rest. -/

/-- The part of the invariant that holds after every slot of a command. -/
structure Settled (s : State) : Prop where
  ldRange : s.ld.toNat ≤ 64
  released : s.dqDrive = false
  doneLd : s.done = true → s.ld = 0#7
  hostCells : s.host.wf

/-- The invariant of a state, without what it says of RESULT, the latch and the buffer. -/
theorem Inv.settled {s : State} (inv : Inv s) : Settled s :=
  ⟨inv.ldRange, inv.released, inv.doneLd, inv.hostCells⟩

section Settled

variable {s : State}

/-- Slots release the line, and DATA, CRC, the buffer and the trace are no part of it. -/
theorem Settled.withSlots (h : Settled s) (data crc : Byte) (rom : Vector Byte 8) (trace : List BusEvent) :
    Settled { s with data := data, crc := crc, rom := rom, trace := trace, dqDrive := false } :=
  { h with released := rfl }

/-- An event on the trace alone is no part of it either. -/
theorem Settled.withTrace (h : Settled s) (trace : List BusEvent) : Settled { s with trace := trace } :=
  { h with }

/-- LD = 0 goes with any DONE (43_romsearch.md R182, R183). -/
theorem Settled.clearLd (h : Settled s) : Settled (setLd 0#7 s) :=
  { h with ldRange := Nat.zero_le 64, doneLd := fun _ => rfl }

/-- A walk reads LD and DONE and does not write them (43_romsearch.md R179 to R181). -/
theorem Settled.walk {o : Oracle} {w : Walk} {k : Nat} (h : Settled s) (walk : w.Follows o s k) : Settled w.st := by
  rw [walk.rest]
  exact h.withSlots _ _ _ _

/-- A completion with a code other than NONE and FOUND gives the invariant. -/
theorem Settled.inv_complete {code : Result} (h : Settled s) (none : code ≠ .none) (found : code ≠ .found) :
    Inv (complete code s) :=
  { h with
    latched := nofun
    foundValid := fun is => absurd is found
    foundSession := fun is => absurd is found
    noneYet := fun is => absurd is none }

end Settled

/-- A reset slot is classified as none of NONE and FOUND (40_buslink.md R107). -/
theorem resetOutcome_ne_none_ne_found : ∀ p idle : Bool,
    resetOutcome p idle ≠ .none ∧ resetOutcome p idle ≠ .found := by
  decide

/-- A walk of all 64 bits leaves the CRC8 of the whole buffer in CRC (43_romsearch.md R181). -/
theorem crc_of_full_walk {o : Oracle} {s : State} {w : Walk} (walk : w.Follows o s 64) :
    w.st.crc = crc8 0x00#8 w.st.rom.toList := by
  rw [walk.crc, List.take_of_length_le (by simp)]

/-- The marker of a full walk fits LD (10_state.md R32). -/
theorem toNat_marker_le {o : Oracle} {s : State} {w : Walk} (walk : w.Follows o s 64) :
    (BitVec.ofNat 7 w.marker).toNat ≤ 64 := by
  rw [BitVec.toNat_ofNat]
  exact (Nat.mod_le _ _).trans (walk.marker ▸ marker_le o s 64)

/-- A pass that ends FOUND leaves a CRC-valid buffer, and DONE exactly when LD = 0 (43_romsearch.md R184). -/
theorem Settled.inv_found {o : Oracle} {s : State} {w : Walk} (h : Settled s) (walk : w.Follows o s 64)
    (crc : w.st.crc = 0x00#8) :
    Inv (complete .found (setDone (doneOf w.marker) (setLd (BitVec.ofNat 7 w.marker) w.st))) :=
  { h.walk walk with
    ldRange := toNat_marker_le walk
    latched := nofun
    foundValid := fun _ => (crc_of_full_walk walk).symm.trans crc
    foundSession := fun _ => ⟨crc, walk.doneOf_marker le_rfl⟩
    doneLd := fun done => of_decide_eq_true ((walk.doneOf_marker le_rfl).symm.trans done)
    noneYet := nofun }

/-- Every end of OW_SNEXT meets the invariant. -/
theorem Settled.inv_snextEnd {o : Oracle} {s t : State} (h : Settled s) (ends : SnextEnd o s t) : Inv t := by
  cases ends with
  | alreadyDone => exact h.inv_complete (by decide) (by decide)
  | resetFailed => exact (h.withSlots s.data s.crc s.rom _).inv_complete (by decide) (by decide)
  | aborted _ _ _ _ walk =>
    exact ((h.walk walk).withTrace _).clearLd.inv_complete (by decide) (by decide)
  | crcFailed _ _ _ walk => exact (h.walk walk).clearLd.inv_complete (by decide) (by decide)
  | found _ _ _ walk crc => exact h.inv_found walk crc

/-- Every command ends in a state that meets the invariant. -/
theorem Settled.inv_commandEnd {s : State} (h : Settled s) (i : Instr) : Inv (commandEnd s i) := by
  cases i with
  | owReset =>
    obtain ⟨none, found⟩ :=
      resetOutcome_ne_none_ne_found (busOracle s s.trace .presence) (busOracle s s.trace .idle)
    exact (h.withSlots s.data s.crc s.rom _).inv_complete none found
  | owWbit b => exact (h.withSlots s.data s.crc s.rom _).inv_complete (by decide) (by decide)
  | owRbit => exact (h.withSlots _ s.crc s.rom _).inv_complete (by decide) (by decide)
  | owWbyte v =>
    rw [commandEnd, owWbyte, writeByteSlots_eq]
    exact (h.withSlots s.data s.crc s.rom _).inv_complete (by decide) (by decide)
  | owRbyte =>
    rw [commandEnd, owRbyte, readBits_state, h.released]
    exact (h.withSlots _ s.crc s.rom _).inv_complete (by decide) (by decide)
  | owCrcld v => exact Settled.inv_complete { h with } (by decide) (by decide)
  | owCrcup v => exact Settled.inv_complete { h with } (by decide) (by decide)
  | owSrst => exact Settled.inv_complete { h.clearLd with doneLd := nofun } (by decide) (by decide)
  | owSnext => exact h.inv_snextEnd (owSnext_ends _ s)

/-- The ENGINE's step gives the invariant. -/
theorem Settled.inv_engineStep {s t : State} (h : Settled s) (engine : engineStep s = .next t) : Inv t := by
  rcases engineStep_cases engine with ⟨i, -, rfl⟩ | rfl
  · exact h.inv_commandEnd i
  · exact h.inv_complete (by decide) (by decide)

/-- A hardware reset gives the invariant, whatever it interrupts (70_reset_and_hazards.md R240). -/
theorem inv_hardwareReset (slots : Nat) {s : State} (cells : s.host.wf) : Inv (hardwareReset slots s) where
  ldRange := Nat.zero_le 64
  released := rfl
  latched := nofun
  foundValid := nofun
  foundSession := nofun
  doneLd := nofun
  noneYet := fun _ => ⟨rfl, rfl, rfl, rfl, rfl⟩
  hostCells := cells

/-- A turn of the HOST that writes no register keeps the invariant, whatever it read. -/
theorem Inv.withHost {s : State} {h' : HostState} (inv : Inv s) (next : s.host.Next h') (turns : List Turn)
    (reads : List Byte) (draws : Nat) :
    Inv { s with schedule := turns, host := h', reads := reads, draws := draws } :=
  { inv with hostCells := next.wf inv.hostCells }

/-- A HOST write while BUSY = 0 keeps the invariant: one of CMD latches what ARG and CMD then hold
(20_memory.md R64, R65). -/
theorem Inv.regWrite {s : State} (inv : Inv s) (idle : s.phase = .idle) (off : Nat) (v : Byte) :
    Inv (regWrite off v s) := by
  rcases regWrite_cases off v s with ⟨-, write⟩ | write | write <;> rw [write]
  · exact { inv with latched := fun _ => rfl }
  · exact { inv with latched := fun running => absurd (idle.symm.trans running) nofun }
  · exact inv

/-- Settles O43: whoever moves, by what a step can do. -/
theorem stepKeepsInvariant : Obligations.StepKeepsInvariant := by
  intro s t inv h
  rcases step_cases h with
    ⟨-, engine⟩ | ⟨slots, turns, -, rfl⟩ | ⟨off, h', -, next, -, rfl⟩ |
      ⟨off, v, -, idle, -, rfl⟩ | ⟨h', next, rfl⟩
  · exact (inv.withHost .stay _ s.reads s.draws).settled.inv_engineStep engine
  · exact inv_hardwareReset slots inv.hostCells
  · exact inv.withHost next _ _ _
  · exact (inv.withHost .goOn _ s.reads s.draws).regWrite idle off v
  · exact inv.withHost next _ s.reads s.draws

end Sys2Proof

namespace Sys2Proof.Machine

/-! ### Several OWCOREs -/

/-- A step of one of several OWCOREs that answers next moves none, where there is none of its number, or replaces that
one by the state of its own step (20_memory.md R77). -/
theorem stepInstance_cases {k : Nat} {all all' : List State} (h : stepInstance k all = .next all') :
    (all[k]? = none ∧ all' = all) ∨ ∃ s t, all[k]? = some s ∧ step s = .next t ∧ all' = all.set k t := by
  unfold stepInstance at h
  split at h
  next absent => exact .inl ⟨absent, (Host.Outcome.next.inj h).symm⟩
  next s present =>
    split at h
    next t moved => exact .inr ⟨s, t, present, moved, (Host.Outcome.next.inj h).symm⟩
    next => cases h
    next => cases h

/-- Settles O51: the one list entry that a step replaces. -/
theorem instancesShareNoState : Obligations.InstancesShareNoState := by
  intro k all all' h
  rcases stepInstance_cases h with ⟨absent, rfl⟩ | ⟨s, t, present, moved, rfl⟩
  · exact ⟨rfl, fun _ _ => rfl, fun s present => nomatch absent.symm.trans present⟩
  · obtain ⟨hk, -⟩ := List.getElem?_eq_some_iff.1 present
    refine ⟨List.length_set, fun j hj => List.getElem?_set_ne hj.symm, fun s' present' => ⟨t, ?_, ?_⟩⟩
    · rwa [← Option.some.inj (present.symm.trans present')]
    · exact List.getElem?_set_self hk

end Sys2Proof.Machine

/-! The encoding (30_encoding.md): decode and encode (O1), the opcode table (O2), the illegal words (O3), the spec's own
words (O4), the assembler's lines (O5), and the pseudo-instructions OW_WAIT (O38) and OW_RSLT (O55). -/

namespace Sys2Proof

/-- The command that a mnemonic makes of an ARG byte (30_encoding.md R83). -/
def Mnemonic.withArg : Mnemonic → Byte → Instr
  | .owReset, _ => .owReset
  | .owWbit, arg => .owWbit (arg.getLsbD 0)
  | .owRbit, _ => .owRbit
  | .owWbyte, arg => .owWbyte arg
  | .owRbyte, _ => .owRbyte
  | .owCrcld, arg => .owCrcld arg
  | .owCrcup, arg => .owCrcup arg
  | .owSrst, _ => .owSrst
  | .owSnext, _ => .owSnext

@[simp] theorem Mnemonic.mnemonic_withArg (m : Mnemonic) (arg : Byte) : (m.withArg arg).mnemonic = m := by
  cases m <;> rfl

end Sys2Proof

namespace Sys2Proof.Machine

/-! ### A word by its fields -/

/-- The bit operand is bit 0 of ARG (30_encoding.md R83). -/
theorem bitOperand_eq (w : Word) : bitOperand w = (argField w).getLsbD 0 := by
  simp [bitOperand, argField]

/-- A word whose RSV is 0 is its ARG byte over the CMD byte of its opcode (30_encoding.md R80 to R83). -/
theorem eq_commandWord_of_fields {w : Word} {opcode : BitVec 4} (rsv : rsvField w = 0#4) (opc : opcField w = opcode) :
    w = commandWord (argField w) (0x0#4 ++ opcode) := by
  have cmd : rsvField w ++ opcField w = w.extractLsb' 0 8 := BitVec.extractLsb'_append_extractLsb'_eq_extractLsb' rfl
  rw [← rsv, ← opc, cmd, commandWord_fields]

/-- Where bits 15 to 9 are 0, ARG is the byte of the bit operand (30_encoding.md R83). -/
theorem argField_eq_bitArg {w : Word} (range : wbitReserved w = 0#7) : argField w = bitArg (bitOperand w) := by
  have arg : wbitReserved w ++ w.extractLsb' 8 1 = argField w :=
    BitVec.extractLsb'_append_extractLsb'_eq_extractLsb' rfl
  have oneBit : ∀ b : BitVec 1, 0#7 ++ b = bitArg (b == 1#1) := by decide
  rw [← arg, range, oneBit, bitOperand, BitVec.getLsbD_eq_extractLsb']

/-- With ARG = 0x00 a word is its CMD byte (30_encoding.md R90). -/
theorem commandWord_zero (cmd : Byte) : commandWord 0x00#8 cmd = cmd.setWidth 16 :=
  (BitVec.setWidth_eq_append (by decide)).symm

/-- The words that the table's usual mask takes to a CMD byte are those with that byte, whatever their ARG
(30_encoding.md R85). -/
theorem and_cmdMask_eq_iff (w : Word) (cmd : Byte) :
    w &&& 0x00FF#16 = cmd.setWidth 16 ↔ w = commandWord (argField w) cmd := by
  constructor
  · intro masked
    have low : w.extractLsb' 0 8 = cmd := by
      rw [← commandWord_fields w, commandWord_and_cmdMask] at masked
      simpa using congrArg (BitVec.setWidth 8) masked
    rw [← low, commandWord_fields]
  · intro word
    rw [word, commandWord_and_cmdMask]

/-! ### Decode and encode -/

/-- A word that an opcode's row decodes holds that opcode, and in ARG the command's operand, if it takes one
(30_encoding.md R85, R86). -/
theorem fields_of_decodeOpcode {w : Word} {i : Instr} (h : decodeOpcode w = .command i) :
    opcField w = i.mnemonic.opcode ∧ argField w = (operandByte i).getD (argField w) := by
  unfold decodeOpcode at h
  split_ifs at h with reset wbit range rbit wbyte rbyte crcld crcup srst snext <;> cases h
  · exact ⟨reset, rfl⟩
  · exact ⟨wbit, argField_eq_bitArg (not_not.1 range)⟩
  · exact ⟨rbit, rfl⟩
  · exact ⟨wbyte, rfl⟩
  · exact ⟨rbyte, rfl⟩
  · exact ⟨crcld, rfl⟩
  · exact ⟨crcup, rfl⟩
  · exact ⟨srst, rfl⟩
  · exact ⟨snext, rfl⟩

/-- The words of a command: its CMD byte with its operand in ARG, or with any ARG where it takes none
(30_encoding.md R83, R86). -/
theorem decode_eq_command_iff (w : Word) (i : Instr) :
    decode w = .command i ↔ w = commandWord ((operandByte i).getD (argField w)) (commandByte i) := by
  constructor
  · intro h
    unfold decode at h
    split_ifs at h with rsv
    obtain ⟨opc, arg⟩ := fields_of_decodeOpcode h
    rw [← arg]
    exact eq_commandWord_of_fields (not_not.1 rsv) opc
  · intro word
    rw [word]
    exact decode_commandWord i (argField w)

/-- The assembler's word decodes to its command (30_encoding.md R86, R90). -/
theorem decode_encode (i : Instr) : decode (encode i) = .command i :=
  decode_commandWord i 0x00#8

/-- A word that decodes to a command is the assembler's, but for an ARG that the command does not read
(30_encoding.md R83, R90). -/
theorem eq_encode_of_decode {w : Word} {i : Instr} (h : decode w = .command i) :
    w = encode i ∨ (operandByte i = none ∧ w &&& 0x00FF#16 = encode i) := by
  have word := (decode_eq_command_iff w i).1 h
  rw [encode]
  cases operand : operandByte i with
  | some v =>
    rw [operand] at word
    exact .inl word
  | none =>
    rw [operand] at word
    exact .inr ⟨rfl, ((and_cmdMask_eq_iff w _).2 word).trans (commandWord_zero _).symm⟩

/-- Settles O1: the assembler's word decodes, and the words of a command are it and its ARG don't-cares. -/
theorem decodeEncodeAgree : Obligations.DecodeEncodeAgree :=
  ⟨decode_encode, fun _ _ => eq_encode_of_decode⟩

/-! ### The opcode table -/

/-- A row's match is its CMD byte (30_encoding.md R85). -/
theorem tableMatch_eq (m : Mnemonic) : m.tableMatch = m.commandByte.setWidth 16 := by
  cases m <;> rfl

/-- A row without an operand is matched by its CMD byte alone (30_encoding.md R85). -/
theorem tableMask_of_none {i : Instr} (h : operandByte i = none) : i.mnemonic.tableMask = 0x00FF#16 := by
  cases i with
  | owWbit b => cases h
  | _ => rfl

/-- The assembler's word of a command matches its row (30_encoding.md R85, R90). -/
theorem encode_and_tableMask (i : Instr) : encode i &&& i.mnemonic.tableMask = i.mnemonic.tableMatch := by
  cases i with
  | owReset => exact Laws.TableRow.owReset.1
  | owWbit b => exact (Laws.TableRow.owWbit b).1
  | owRbit => exact Laws.TableRow.owRbit.1
  | owWbyte v => exact (Laws.TableRow.owWbyte v).1
  | owRbyte => exact Laws.TableRow.owRbyte.1
  | owCrcld v => exact (Laws.TableRow.owCrcld v).1
  | owCrcup v => exact (Laws.TableRow.owCrcup v).1
  | owSrst => exact Laws.TableRow.owSrst.1
  | owSnext => exact Laws.TableRow.owSnext.1

/-- A word that decodes to a command matches its row (30_encoding.md R85). -/
theorem and_tableMask_of_decode {w : Word} {i : Instr} (h : decode w = .command i) :
    w &&& i.mnemonic.tableMask = i.mnemonic.tableMatch := by
  rcases eq_encode_of_decode h with rfl | ⟨operand, low⟩
  · exact encode_and_tableMask i
  · rw [← encode_and_tableMask i, ← low, tableMask_of_none operand, BitVec.and_assoc, BitVec.and_self]

/-- A word whose low byte is a command's, and whose ARG is the command's operand if it takes one, decodes to it
(30_encoding.md R83, R85). -/
theorem decode_of_cmdMask {w : Word} {i : Instr} (arg : (operandByte i).getD (argField w) = argField w)
    (row : w &&& 0x00FF#16 = i.mnemonic.tableMatch) : decode w = .command i := by
  rw [decode_eq_command_iff, arg]
  exact (and_cmdMask_eq_iff w _).1 (row.trans (tableMatch_eq _))

/-- A word of OW_WBIT's row is fixed but for bit 8, its operand (30_encoding.md R83, R85). -/
theorem decode_of_wbitMask {w : Word} (row : w &&& 0xFEFF#16 = 0x0002#16) :
    decode w = .command (.owWbit (bitOperand w)) := by
  have word : w = 0x0002#16 ||| if bitOperand w then 0x0100#16 else 0#16 :=
    calc w = w &&& (0xFEFF#16 ||| BitVec.twoPow 16 8) := BitVec.and_allOnes.symm
      _ = (w &&& 0xFEFF#16) ||| (w &&& BitVec.twoPow 16 8) := BitVec.and_or_distrib_left
      _ = 0x0002#16 ||| if bitOperand w then 0x0100#16 else 0#16 := by rw [row, BitVec.and_twoPow]; rfl
  generalize bitOperand w = b at word ⊢
  subst word
  cases b <;> decide

/-- A word that matches a row decodes to the row's command with the word's ARG (30_encoding.md R85, R86). -/
theorem decode_of_and_tableMask {w : Word} {m : Mnemonic} (row : w &&& m.tableMask = m.tableMatch) :
    decode w = .command (m.withArg (argField w)) := by
  cases m with
  | owWbit => exact (decode_of_wbitMask row).trans (by rw [bitOperand_eq]; rfl)
  | _ => exact decode_of_cmdMask rfl row

/-- Settles O2: a decoded word matches its row, and a row's word decodes to a command of it. -/
theorem decodeMatchesTableRow : Obligations.DecodeMatchesTableRow := by
  refine fun w m => ⟨?_, fun row => ⟨_, m.mnemonic_withArg _, decode_of_and_tableMask row⟩⟩
  rintro ⟨i, rfl, h⟩
  exact and_tableMask_of_decode h

/-! ### Illegal words -/

/-- With RSV = 0, the illegal words are those of no row's opcode, and OW_WBIT's with an operand out of range
(30_encoding.md R88). -/
theorem decodeOpcode_illegal_iff (w : Word) :
    (∃ why, decodeOpcode w = .illegal why) ↔
      (opcField w = 0x0#4 ∨ 0xA ≤ (opcField w).toNat ∨ (opcField w = 0x2#4 ∧ wbitReserved w ≠ 0#7)) := by
  unfold decodeOpcode
  split_ifs with reset wbit range rbit wbyte rbyte crcld crcup srst snext
  · simp [reset]
  · exact iff_of_true ⟨_, rfl⟩ (.inr (.inr ⟨wbit, range⟩))
  · simp [wbit, not_not.1 range]
  · simp [rbit]
  · simp [wbyte]
  · simp [rbyte]
  · simp [crcld]
  · simp [crcup]
  · simp [srst]
  · simp [snext]
  · have noRow : opcField w = 0x0#4 ∨ 0xA ≤ (opcField w).toNat := by bv_omega
    exact iff_of_true ⟨_, rfl⟩ (or_assoc.1 (.inl noRow))

/-- Settles O3: RSV is checked first, then the opcode. -/
theorem illegalWordsAreExactlyThese : Obligations.IllegalWordsAreExactlyThese := by
  intro w
  by_cases rsv : rsvField w = 0#4
  · rw [decode, if_neg (not_not.2 rsv), decodeOpcode_illegal_iff]
    simp only [rsv, ne_eq, not_true, false_or]
  · rw [decode, if_pos rsv]
    exact iff_of_true ⟨_, rfl⟩ (.inr (.inr (.inl rsv)))

/-- Settles O4: fourteen closed words, decoded. -/
theorem specWordsDecode : Obligations.SpecWordsDecode := by
  unfold Obligations.SpecWordsDecode
  decide

end Sys2Proof.Machine

namespace Sys2Proof

open Sys2Proof.Machine

/-! ### The assembler's lines -/

/-- A mnemonic takes from ARG what its operand form says (30_encoding.md R83). -/
theorem Mnemonic.operandByte_withArg (m : Mnemonic) (arg : Byte) :
    operandByte (m.withArg arg) =
      match m.form with
      | .none => none
      | .bit => some (bitArg (arg.getLsbD 0))
      | .imm8 => some arg := by
  cases m <;> rfl

/-- Bit 0 of a bit literal's byte is the bit (30_encoding.md R90). -/
theorem getLsbD_zero_of_bitLiteral {n : Nat} (h : n < 2) : (BitVec.ofNat 8 n).getLsbD 0 = decide (n = 1) := by
  interval_cases n <;> decide

/-- A bit literal's byte is the ARG byte of its bit 0 (30_encoding.md R90). -/
theorem bitArg_of_bitLiteral {n : Nat} (h : n < 2) :
    bitArg ((BitVec.ofNat 8 n).getLsbD 0) = BitVec.ofNat 8 n := by
  interval_cases n <;> decide

/-- A line assembles exactly when it is well formed, to its mnemonic with its literal in ARG (30_encoding.md R90). -/
theorem AsmLine.assemble_eq (l : AsmLine) :
    l.assemble =
      if l.wellFormed then some (l.mnemonic.withArg (BitVec.ofNat 8 (l.operand.getD 0))) else none := by
  obtain ⟨m, operand⟩ := l
  cases operand with
  | none => cases m <;> rfl
  | some n =>
    have range (bound : Nat) : (n < bound) = (decide (n < bound) = true) := decide_eq_true_eq.symm
    cases m with
    | owWbit =>
      refine ite_congr (range 2) (fun h => ?_) fun _ => rfl
      rw [← getLsbD_zero_of_bitLiteral (of_decide_eq_true h)]
      rfl
    | owWbyte => exact ite_congr (range 256) (fun _ => rfl) fun _ => rfl
    | owCrcld => exact ite_congr (range 256) (fun _ => rfl) fun _ => rfl
    | owCrcup => exact ite_congr (range 256) (fun _ => rfl) fun _ => rfl
    | _ => rfl

/-- A well-formed line's command has the line's literal as its operand (30_encoding.md R90). -/
theorem AsmLine.operandByte_of_wellFormed {l : AsmLine} (h : l.wellFormed = true) :
    operandByte (l.mnemonic.withArg (BitVec.ofNat 8 (l.operand.getD 0))) = l.operand.map (BitVec.ofNat 8) := by
  have admits : l.mnemonic.form.admits l.operand = true := h
  rw [Mnemonic.operandByte_withArg]
  match l.mnemonic.form, l.operand, admits with
  | .none, none, _ => rfl
  | .bit, some n, admits => exact congrArg some (bitArg_of_bitLiteral (of_decide_eq_true admits))
  | .imm8, some n, _ => rfl

/-- Settles O5: the command of a well-formed line, by its mnemonic and its operand form. -/
theorem assemblerTakesWellFormedLines : Obligations.AssemblerTakesWellFormedLines := by
  refine fun l => ⟨fun wf => ⟨_, ?_, l.mnemonic.mnemonic_withArg _, AsmLine.operandByte_of_wellFormed wf⟩,
    fun ill => ?_⟩
  · rw [l.assemble_eq, if_pos wf]
  · rw [l.assemble_eq, ill]
    rfl

end Sys2Proof

namespace Sys2Proof.Machine

/-! ### OW_WAIT and OW_RSLT -/

/-- The step of a HOST that polls while BUSY = 1: it draws a value and stays in the loop (30_encoding.md R91). -/
theorem step_poll_running {s : State} {turns : List Turn} (hm : HostMoves s turns) (hp : s.phase = .running)
    (hpoll : s.host.move = .poll) :
    step s = .next { s with
      schedule := turns, reads := s.reads ++ [readValue 0x2 s], draws := s.draws + 1 } := by
  rw [step_hostMoves hm, hostTurn_poll (s := { s with schedule := turns }) hpoll,
    hostPoll_running (s := { s with schedule := turns }) hp,
    deliverRead_running 0x2 (s := { s with schedule := turns }) hp]
  rfl

/-- Settles O38: the poll at BUSY = 0, and the poll of a drawn value whose bit 0 is 1. -/
theorem owWaitPollsUntilBusyIsZero : Obligations.OwWaitPollsUntilBusyIsZero :=
  fun s _ hm hpoll => ⟨fun hp => step_poll_idle hm hp hpoll,
    fun hp => ⟨readValue 0x2 s, readValue_status_busy hp, step_poll_running hm hp hpoll⟩⟩

/-- OW_RSLT's shift and mask take RESULT out of a byte read from STATUS (30_encoding.md R91). -/
theorem shr_and_eq_resultField (b : Byte) : b.setWidth 64 >>> 1 &&& 7#64 = (resultField b).setWidth 64 := by
  apply BitVec.eq_of_toNat_eq
  have mask (n : Nat) : n &&& 7 = n % 8 := Nat.and_two_pow_sub_one_eq_mod n 3
  have small := b.isLt
  simp only [resultField, BitVec.toNat_and, BitVec.toNat_ushiftRight, BitVec.toNat_setWidth, BitVec.extractLsb'_toNat,
    BitVec.toNat_ofNat, Nat.reduceMod, Nat.reducePow, mask, Nat.shiftRight_eq_div_pow]
  omega

/-- The HOST after `OW_RSLT r` that read the byte `status`: past the poll, with the byte read into r, and then RESULT
(30_encoding.md R91). -/
def HostState.afterOwRslt (r : Nat) (status : Byte) (h : HostState) : HostState :=
  (h.goOn.receive r status).assign r ((resultField status).setWidth 64)

/-- Where r holds a byte, OW_RSLT's expression over it is the byte's RESULT field. -/
theorem eval_owRslt {h : HostState} {r : Nat} {status : Byte} (holds : h.eval (.var r) = status.setWidth 64) :
    h.eval (.bin .and (.bin .shr (.var r) (.const 1)) (.const 7)) = (resultField status).setWidth 64 := by
  rw [← shr_and_eq_resultField, ← holds]
  rfl

/-- A HOST that has read a byte into a variable finds it there, and every other variable as it was. -/
theorem eval_var_receive {h : HostState} (hw : h.wf) (x y : Nat) (v : Byte) :
    (h.receive x v).eval (.var y) = if y = x then v.setWidth 64 else h.eval (.var y) :=
  eval_var_assign hw x y _

/-- OW_RSLT sets r to the RESULT field of the byte read, and no other variable (30_encoding.md R91). -/
theorem eval_var_afterOwRslt {h : HostState} (hw : h.wf) (r y : Nat) (status : Byte) :
    (h.afterOwRslt r status).eval (.var y) =
      if y = r then (resultField status).setWidth 64 else h.eval (.var y) := by
  have received : (h.goOn.receive r status).wf := (HostState.Next.receive r status).wf hw
  rw [HostState.afterOwRslt, eval_var_assign received]
  split
  · rfl
  next ne => exact (eval_var_receive (h := h.goOn) hw r y _).trans (if_neg ne)

/-- From an IDLE state with no turn scheduled, OW_RSLT is a poll, a read of STATUS, and a computation of the HOST's own
(30_encoding.md R91). -/
theorem run_owRslt {s : State} {r : Nat} {rest : List HostOp} (hp : s.phase = .idle) (hs : s.schedule = [])
    (hw : s.host.wf) (hd : s.host.program.drop s.host.pc = owRslt r ++ rest) :
    Host.Core.run Sys2Proof.core 3 s = .next { s with
      host := s.host.afterOwRslt r (statusByte s), reads := s.reads ++ [statusByte s, statusByte s] } := by
  obtain ⟨atPoll, hd⟩ := getElem_of_drop hd
  obtain ⟨atRead, hd⟩ := getElem_of_drop hd
  obtain ⟨atSet, -⟩ := getElem_of_drop hd
  let polled : State := { s with host := s.host.goOn, reads := s.reads ++ [statusByte s] }
  have poll : step s = .next polled := by
    rw [step_poll_idle (.inr ⟨hs, rfl, hp⟩) hp (move_of_getElem atPoll), ← hs]
  let hasRead : State := { polled with
    host := polled.host.receive r (statusByte s), reads := polled.reads ++ [statusByte s] }
  have read : step polled = .next hasRead := by
    rw [idleReadsReturnTheRegister.1 polled [] 0x2 r (.inr ⟨hs, rfl, hp⟩) hp (by decide)
      (move_of_getElem (h := s.host.goOn) atRead), ← hs]
    rfl
  have set : step hasRead = .next { hasRead with host := s.host.afterOwRslt r (statusByte s) } := by
    rw [step_own (s := hasRead) (.inr ⟨hs, rfl, hp⟩)
        (move_of_getElem (h := s.host.goOn.receive r (statusByte s)) atSet),
      eval_owRslt ((eval_var_receive (h := s.host.goOn) hw r r _).trans (if_pos rfl)), ← hs]
    rfl
  rw [run_succ 2 poll, run_succ 1 read, run_succ 0 set]
  simp only [hasRead, polled, List.append_assoc, List.cons_append, List.nil_append]
  rfl

/-- Settles O55: the run, and what the HOST then finds in its variables. -/
theorem owRsltReadsTheResult : Obligations.OwRsltReadsTheResult := by
  refine fun r s rest hp hs hw hd => ⟨_, run_owRslt hp hs hw hd, ?_, fun y hy => ?_, rfl, rfl, rfl⟩
  · obtain ⟨-, result, -⟩ := statusLayout.1 s
    rw [eval_var_afterOwRslt hw, if_pos rfl, resultField, result]
  · rw [eval_var_afterOwRslt hw, if_neg hy]

end Sys2Proof.Machine

/-! The bit-timing engine (40_buslink.md): OW_RESET (O8), OW_WBIT (O9) and OW_RBIT (O10), each from what its one slot
leaves, with the words that decode to it. -/

namespace Sys2Proof.Machine

/-! ### What a bit command leaves -/

/-- OW_RESET writes its classification and appends its one reset slot (40_buslink.md R106, R107). -/
theorem owReset_eq (o : Oracle) (s : State) :
    owReset o s = { s with
      result := resetOutcome (o s.trace .presence) (o s.trace .idle), phase := .idle, dqDrive := false
      trace := s.trace ++ [.rst (o s.trace .presence) (o s.trace .idle)] } := by
  rw [owReset, slotReset_eq]
  rfl

/-- OW_WBIT completes OK and appends its one write slot (40_buslink.md R108, R109). -/
theorem owWbit_eq (b : Bool) (s : State) :
    owWbit b s = { s with
      result := .ok, phase := .idle, dqDrive := false, trace := s.trace ++ [.w b] } := by
  rw [owWbit, slotWrite_eq]
  rfl

/-- OW_RBIT writes its sample to DATA, completes OK and appends its one read slot (40_buslink.md R110, R111). -/
theorem owRbit_eq (o : Oracle) (s : State) :
    owRbit o s = { s with
      data := bitToByte (o s.trace .read), result := .ok, phase := .idle, dqDrive := false
      trace := s.trace ++ [.r (o s.trace .read)] } := by
  rw [owRbit, slotRead_eq]
  rfl

/-! ### Illegal words -/

/-- The ENGINE's step of an illegal word completes ILLEGAL and performs no slot (60_exceptions.md R211). -/
theorem engineStep_illegal {s : State} {why : IllegalWord} (hd : decode s.lcmd = .illegal why) :
    engineStep s = .next { s with result := .illegal, phase := .idle } := by
  rw [engineStep, hd]
  rfl

/-- An OW_WBIT whose operand exceeds one bit is illegal (40_buslink.md R109; 30_encoding.md R83, R88). -/
theorem decode_of_wbitReserved {w : Word} (opc : opcField w = 0x2#4) (rsv : rsvField w = 0#4)
    (range : wbitReserved w ≠ 0#7) : decode w = .illegal .bitOperandRange := by
  rw [decode, if_neg (not_not.2 rsv), decodeOpcode, opc, if_neg (by decide), if_pos rfl, if_pos range]

/-! ### The three commands -/

/-- Settles O8: OW_RESET's row, and its one reset slot. -/
theorem owResetClassifiesTheSlot : Obligations.OwResetClassifiesTheSlot := by
  refine ⟨fun w row => decode_of_and_tableMask (m := .owReset) row, fun s => ?_⟩
  rw [exec_eq_next, commandEnd, owReset_eq]
  rfl

/-- Settles O9: OW_WBIT's two words, its words out of range, and its one write slot. -/
theorem owWbitWritesOneBit : Obligations.OwWbitWritesOneBit := by
  refine ⟨⟨decode_encode (.owWbit false), decode_encode (.owWbit true), fun w opc rsv range => ?_⟩, fun b s => ?_⟩
  · have illegal := decode_of_wbitReserved opc rsv range
    exact ⟨illegal, fun s latched => engineStep_illegal (latched ▸ illegal)⟩
  · rw [exec_eq_next, commandEnd, owWbit_eq]

/-- Settles O10: OW_RBIT's row, and its one read slot. -/
theorem owRbitReadsOneBit : Obligations.OwRbitReadsOneBit := by
  refine ⟨fun w row => decode_of_and_tableMask (m := .owRbit) row, fun s => ?_⟩
  rw [exec_eq_next, commandEnd, owRbit_eq]
  rfl

end Sys2Proof.Machine

/-! The byte serializer and deserializer (41_bytecodec.md): OW_WBYTE (O11) and OW_RBYTE (O12), each from what its eight
slots leave, and their relation to the bit commands (O13). -/

namespace Sys2Proof.Machine

/-! ### What a byte command leaves -/

/-- OW_WBYTE completes OK and appends its eight write slots (41_bytecodec.md R131). -/
theorem owWbyte_eq (v : Byte) (s : State) :
    owWbyte v s = { s with
      result := .ok, phase := .idle, dqDrive := false, trace := s.trace ++ (wireBits v).map BusEvent.w } := by
  rw [owWbyte, writeByteSlots_eq]
  rfl

/-- OW_RBYTE writes the byte read to DATA, completes OK and appends its eight read slots (41_bytecodec.md R133). -/
theorem owRbyte_eq (o : Oracle) (s : State) :
    owRbyte o s = { s with
      data := (readBits o 8 0 0x00#8 s).1, result := .ok, phase := .idle, dqDrive := false
      trace := s.trace ++ (readSamples o 8 s.trace).map BusEvent.r } := by
  have released : (s.dqDrive && decide (8 = 0)) = false := Bool.and_false _
  simp only [owRbyte, readBits_state, released]
  rfl

/-- Bit i of the byte read is the sample of slot i (41_bytecodec.md R133). -/
theorem readBits_eight_getLsbD (o : Oracle) (s : State) {i : Nat} (h : i < (readSamples o 8 s.trace).length) :
    (readBits o 8 0 0x00#8 s).1.getLsbD i = (readSamples o 8 s.trace)[i] := by
  have slot : i < 0 + 8 := by simpa using h
  rw [readBits_getLsbD o 8 0 _ s le_rfl, if_pos ⟨i.zero_le, slot⟩, Nat.sub_zero, List.getElem?_eq_getElem h]
  rfl

/-! ### The two commands -/

/-- Settles O11: OW_WBYTE's gaps, its row, and its eight write slots. -/
theorem owWbyteWritesEightBits : Obligations.OwWbyteWritesEightBits := by
  refine ⟨fun _ _ _ => rfl, fun w row => decode_of_and_tableMask (m := .owWbyte) row, fun v s => ?_⟩
  rw [exec_eq_next, commandEnd, owWbyte_eq]
  rfl

/-- Settles O12: OW_RBYTE's gaps, its row, and its eight read slots with the bits of DATA. -/
theorem owRbyteReadsEightBits : Obligations.OwRbyteReadsEightBits := by
  refine ⟨fun _ _ => rfl, fun w row => decode_of_and_tableMask (m := .owRbyte) row, fun s =>
    ⟨readSamples (busOracle s) 8 s.trace, (readBits (busOracle s) 8 0 0x00#8 s).1, readSamples_length _ _ _,
      fun i h => ⟨readSamples_getElem _ _ _ i h, readBits_eight_getLsbD _ s h⟩, ?_⟩⟩
  rw [exec_eq_next, commandEnd, owRbyte_eq]

/-! ### Byte commands and bit commands -/

/-- OW_WBITs of a list of bits, one after another, end as its write slots with one completion. -/
theorem foldl_owWbit (bs : List Bool) (s : State) :
    bs.foldl (fun t b => owWbit b t) (complete .ok s) = complete .ok (writeBits bs s) := by
  induction bs generalizing s with
  | nil => rfl
  | cons b bs ih => exact ih (slotWrite b s)

/-- The first samples of a run of read slots are those of a shorter run. -/
theorem take_readSamples (o : Oracle) {k n : Nat} (h : k ≤ n) (t : List BusEvent) :
    (readSamples o n t).take k = readSamples o k t := by
  induction k generalizing n t with
  | zero => rfl
  | succ k ih =>
    obtain ⟨n, rfl⟩ := Nat.exists_eq_add_of_le' (k.succ_pos.trans_le h)
    rw [readSamples, readSamples, List.take_succ_cons, ih (Nat.le_of_succ_le_succ h)]

/-- `n` OW_RBITs perform `n` read slots in a row (40_buslink.md R111). -/
theorem iterate_owRbit_trace (o : Oracle) (n : Nat) (s : State) :
    ((owRbit o)^[n] s).trace = s.trace ++ (readSamples o n s.trace).map BusEvent.r := by
  induction n generalizing s with
  | zero => simp [readSamples]
  | succ n ih =>
    rw [Function.iterate_succ_apply, ih, owRbit_eq]
    simp [readSamples]

/-- OW_RBIT puts its sample in DATA[0] (40_buslink.md R111). -/
theorem owRbit_data_getLsbD_zero (o : Oracle) (s : State) : (owRbit o s).data.getLsbD 0 = o s.trace .read := by
  have bit : ∀ b : Bool, (bitToByte b).getLsbD 0 = b := by decide
  rw [owRbit_eq]
  exact bit _

/-- The (i + 1)-th of a row of OW_RBITs samples what slot i of a run of read slots does. -/
theorem iterate_owRbit_data (o : Oracle) (s : State) {i n : Nat} (h : i < (readSamples o n s.trace).length) :
    ((owRbit o)^[i + 1] s).data.getLsbD 0 = (readSamples o n s.trace)[i] := by
  have within : i ≤ n := h.le.trans_eq (readSamples_length o n _)
  rw [Function.iterate_succ_apply', owRbit_data_getLsbD_zero, iterate_owRbit_trace, readSamples_getElem,
    take_readSamples o within]

/-- Settles O13: eight write slots with one completion or with eight, and eight read slots either way. -/
theorem byteCommandsAreEightBitCommands : Obligations.ByteCommandsAreEightBitCommands := by
  refine ⟨fun v s => (foldl_owWbit (wireBits v) s).symm, fun o s => ⟨?_, fun i hi => ?_⟩⟩
  · rw [owRbyte_eq, iterate_owRbit_trace]
  · have slot : i < (readSamples o 8 s.trace).length := hi.trans_eq (readSamples_length o 8 _).symm
    rw [owRbyte_eq, iterate_owRbit_data o s slot]
    exact readBits_eight_getLsbD o s slot

end Sys2Proof.Machine

/-! The CRC8 accumulator (42_crc8.md): the table's shift as a linear bijection (O16), the shift register (O17), CRC8 of
sequences (O18, O19), and the commands OW_CRCLD (O14) and OW_CRCUP (O15). -/

namespace Sys2Proof.Machine

/-! ### One shift of the generator -/

/-- What a shift mixes in: the polynomial's constant, where the bit shifted out is 1 (42_crc8.md R152). -/
def crcFeedback (out : Bool) : Byte := if out then 0x8C#8 else 0x00#8

theorem crcFeedback_xor : ∀ x y : Bool, crcFeedback (x ^^ y) = crcFeedback x ^^^ crcFeedback y := by decide

/-- The polynomial's constant has its top bit set. -/
theorem crcFeedback_getLsbD_seven : ∀ out : Bool, (crcFeedback out).getLsbD 7 = out := by decide

/-- Mixing in by a conditional is mixing in the feedback. -/
theorem ite_xor_eq_xor_crcFeedback (x : Byte) (out : Bool) :
    (if out then x ^^^ 0x8C#8 else x) = x ^^^ crcFeedback out := by
  cases out
  · exact BitVec.xor_zero.symm
  · rfl

theorem crcShift_eq (c : Byte) : crcShift c = c >>> 1 ^^^ crcFeedback (c.getLsbD 0) :=
  ite_xor_eq_xor_crcFeedback _ _

/-- Moving down and the feedback are both linear, and so is a shift (42_crc8.md R154). -/
theorem crcShift_xor (a b : Byte) : crcShift (a ^^^ b) = crcShift a ^^^ crcShift b := by
  simp only [crcShift_eq, BitVec.ushiftRight_xor_distrib, BitVec.getLsbD_xor, crcFeedback_xor]
  ac_rfl

/-- The bit shifted out comes back as the top bit. -/
theorem crcShift_getLsbD_seven (c : Byte) : (crcShift c).getLsbD 7 = c.getLsbD 0 := by
  rw [crcShift_eq, BitVec.getLsbD_xor, crcFeedback_getLsbD_seven]
  simp

/-- A shift loses nothing: its top bit tells the bit shifted out, and the rest are the others moved down. -/
theorem crcShift_injective : Function.Injective crcShift := by
  intro a b h
  have low : a.getLsbD 0 = b.getLsbD 0 := by
    rw [← crcShift_getLsbD_seven, h, crcShift_getLsbD_seven]
  have high : a >>> 1 = b >>> 1 := by
    rw [crcShift_eq, crcShift_eq, low] at h
    exact (BitVec.xor_left_inj _).1 h
  apply BitVec.eq_of_getLsbD_eq
  intro i _
  cases i with
  | zero => exact low
  | succ i => simpa [Nat.add_comm] using congrArg (·.getLsbD i) high

/-! ### The table -/

/-- The table is eight shifts (42_crc8.md R152). -/
theorem crcTable_eq_iterate (x : Byte) : crcTable x = crcShift^[8] x := rfl

/-- Shifts in a row are linear. -/
theorem iterate_crcShift_xor (n : Nat) (a b : Byte) :
    crcShift^[n] (a ^^^ b) = crcShift^[n] a ^^^ crcShift^[n] b := by
  induction n with
  | zero => rfl
  | succ n ih => simp only [Function.iterate_succ_apply', ih, crcShift_xor]

/-- The table is linear (42_crc8.md R154). -/
theorem crcTable_xor (a b : Byte) : crcTable (a ^^^ b) = crcTable a ^^^ crcTable b :=
  iterate_crcShift_xor 8 a b

@[simp] theorem crcTable_zero : crcTable 0x00#8 = 0x00#8 := rfl

theorem crcTable_injective : Function.Injective crcTable := crcShift_injective.iterate 8

@[simp] theorem crcTable_eq_zero_iff (x : Byte) : crcTable x = 0x00#8 ↔ x = 0x00#8 :=
  crcTable_injective.eq_iff' crcTable_zero

/-- An update gives 0x00 exactly when the byte is the running CRC (42_crc8.md R154). -/
theorem crcUpdate_eq_zero_iff (crc byte : Byte) : crcUpdate crc byte = 0x00#8 ↔ byte = crc := by
  rw [crcUpdate, crcTable_eq_zero_iff, BitVec.xor_eq_zero_iff, eq_comm]

/-- Settles O16: the four properties, each from one shift of the generator. -/
theorem crcTableIsLinearBijection : Obligations.CrcTableIsLinearBijection :=
  ⟨crcTable_zero, Finite.injective_iff_bijective.1 crcTable_injective, crcTable_xor, crcUpdate_eq_zero_iff⟩

/-! ### The shift register -/

theorem crcBitStep_eq (byte c : Byte) (i : Nat) :
    crcBitStep byte c i = c >>> 1 ^^^ crcFeedback (c.getLsbD 0 ^^ byte.getLsbD i) :=
  ite_xor_eq_xor_crcFeedback _ _

/-- A register that holds x under the bits of the byte still to come takes in the next of them and shifts x. -/
theorem crcBitStep_xor_ushiftRight (byte x : Byte) (n : Nat) :
    crcBitStep byte (x ^^^ byte >>> n) n = crcShift x ^^^ byte >>> (n + 1) := by
  have mix : ((x ^^^ byte >>> n).getLsbD 0 ^^ byte.getLsbD n) = x.getLsbD 0 := by simp
  rw [crcBitStep_eq, mix, crcShift_eq, BitVec.ushiftRight_xor_distrib, BitVec.shiftRight_add]
  ac_rfl

/-- After n steps the register holds n shifts of crc ^ byte, under the bits of the byte still to come. -/
theorem foldl_crcBitStep (crc byte : Byte) (n : Nat) :
    (List.range n).foldl (crcBitStep byte) crc = crcShift^[n] (crc ^^^ byte) ^^^ byte >>> n := by
  induction n with
  | zero => simp
  | succ n ih =>
    rw [List.range_succ, List.foldl_append, ih, List.foldl_cons, List.foldl_nil, crcBitStep_xor_ushiftRight,
      Function.iterate_succ_apply']

/-- Settles O17: after eight steps no bit of the byte is still to come. -/
theorem crcTableIsTheShiftRegister : Obligations.CrcTableIsTheShiftRegister := by
  intro crc byte
  have spent : byte >>> 8 = 0x00#8 := BitVec.ushiftRight_eq_zero le_rfl
  rw [crcBitwise, foldl_crcBitStep, spent, BitVec.xor_zero, crcTable_eq_iterate]

/-! ### CRC8 of a sequence -/

@[simp] theorem crc8_nil (c : Byte) : crc8 c [] = c := rfl

@[simp] theorem crc8_cons (c x : Byte) (xs : List Byte) : crc8 c (x :: xs) = crc8 (crcUpdate c x) xs := rfl

/-- Updates by one byte of different accumulators differ. -/
theorem crcUpdate_left_injective (byte : Byte) : Function.Injective fun crc => crcUpdate crc byte :=
  fun _ _ h => (BitVec.xor_left_inj _).1 (crcTable_injective h)

/-- Updates of one accumulator by different bytes differ. -/
theorem crcUpdate_right_injective (crc : Byte) : Function.Injective (crcUpdate crc) :=
  fun _ _ h => (BitVec.xor_right_inj _).1 (crcTable_injective h)

/-- A difference in the accumulator stays through any sequence (42_crc8.md R159). -/
theorem crc8_left_injective (xs : List Byte) : Function.Injective fun c => crc8 c xs := by
  induction xs with
  | nil => exact fun _ _ h => h
  | cons x xs ih => exact ih.comp (crcUpdate_left_injective x)

/-- Putting another byte in one place of a sequence changes its CRC8. -/
theorem crc8_set_ne (c b : Byte) (x : List Byte) (j : Nat) (h : j < x.length) (hb : b ≠ x[j]) :
    crc8 c (x.set j b) ≠ crc8 c x := by
  induction x generalizing c j with
  | nil => exact absurd h (Nat.not_lt_zero j)
  | cons y ys ih =>
    cases j with
    | zero => exact (crc8_left_injective ys).ne ((crcUpdate_right_injective c).ne hb)
    | succ j => exact ih (crcUpdate c y) j (Nat.lt_of_succ_lt_succ h) hb

/-- A flipped bit makes another byte. -/
theorem xor_bit_ne (b : Byte) {i : Nat} (hi : i < 8) : b ^^^ 0x01#8 <<< i ≠ b := by
  intro h
  simpa [hi] using congrArg (·.getLsbD i) h

/-- Settles O18: the last update takes in the running CRC itself. -/
theorem crcResidueIsZero : Obligations.CrcResidueIsZero := by
  intro c0 p
  rw [crc8_append, crc8_cons, crc8_nil, crcUpdate_eq_zero_iff]

/-- Settles O19: the flipped byte is another byte, so the CRC8 is no longer 0x00. -/
theorem crcDetectsSingleBitFlip : Obligations.CrcDetectsSingleBitFlip := by
  intro x zero j h i hi
  have changed := crc8_set_ne 0x00#8 _ x j h (xor_bit_ne x[j] hi)
  rwa [zero] at changed

/-! ### The two commands -/

/-- Settles O14: OW_CRCLD's row, and its load. -/
theorem owCrcldLoadsCrc : Obligations.OwCrcldLoadsCrc :=
  ⟨fun _ row => decode_of_and_tableMask (m := .owCrcld) row, fun v s => exec_eq_next (.owCrcld v) s⟩

/-- Settles O15: OW_CRCUP's row, and its update. -/
theorem owCrcupFoldsOneByte : Obligations.OwCrcupFoldsOneByte :=
  ⟨fun _ row => decode_of_and_tableMask (m := .owCrcup) row, fun v s => exec_eq_next (.owCrcup v) s⟩

end Sys2Proof.Machine

/-! The search of RomIds (43_romsearch.md): OW_SRST (O21), the ends of OW_SNEXT before its pass (O22, O23), what every
end of it leaves (O24), the pass past its reset slot against the bit-by-bit search (O25), and from that the slots of
each path (O26) and what LD = 0 makes of the old buffer (O28); and the check byte of the buffer (O20). -/

namespace Sys2Proof.Machine

/-! ### The check byte -/

/-- Settles O20: byte 7 is the last update, which takes in the CRC8 of the bytes before it. -/
theorem bufferIsValidExactlyByItsCheckByte : Obligations.BufferIsValidExactlyByItsCheckByte := by
  intro rom
  have bytes : rom.toList = rom.toList.take 7 ++ [rom[7]] := by
    rw [← romByte_of_lt rom 7 (by decide), ← rom_take_succ rom 7 (by decide), List.take_of_length_le (by simp)]
  have crc : crc8 0x00#8 rom.toList = crcUpdate (crc8 0x00#8 (rom.toList.take 7)) rom[7] :=
    (congrArg _ bytes).trans (crc8_append _ _ _)
  rw [crc, crcUpdate_eq_zero_iff]

/-! ### OW_SRST, and OW_SNEXT without a pass -/

/-- Settles O21: OW_SRST's row, and its session. -/
theorem owSrstClearsSession : Obligations.OwSrstClearsSession :=
  ⟨fun _ row => decode_of_and_tableMask (m := .owSrst) row, exec_eq_next .owSrst⟩

/-- With DONE = 1, OW_SNEXT performs no slot (43_romsearch.md R185). -/
theorem owSnext_of_done (o : Oracle) {s : State} (done : s.done = true) : owSnext o s = complete .notFound s :=
  if_pos done

/-- With DONE = 1, no step of the ENGINE but OW_SRST's clears it (43_romsearch.md R185). -/
theorem engineStep_keeps_done {s t : State} (h : engineStep s = .next t) (done : s.done = true) :
    t.done = true ∨ decode s.lcmd = .command .owSrst := by
  by_cases kept : t.done = s.done
  · exact .inl (kept.trans done)
  · rcases engineStep_done_changes h kept with srst | ⟨snext, found⟩
    · exact .inr srst
    · obtain rfl := Host.Outcome.next.inj ((engineStep_command snext).symm.trans h)
      rw [owSnext_of_done _ done] at found
      cases found

/-- Settles O22: the done path, and who can clear DONE in a step. -/
theorem owSnextDonePath : Obligations.OwSnextDonePath := by
  refine ⟨fun s done => ?_, fun s t done h => ?_⟩
  · rw [exec_eq_next, commandEnd, owSnext_of_done _ done, complete]
  · rcases step_engine_or_reset_or_keepsResults h with ⟨running, engine⟩ | ⟨slots, turns, reset, -⟩ | keeps
    · exact (engineStep_keeps_done engine done).imp_right fun srst => .inr ⟨running, srst⟩
    · exact .inr (.inl ⟨slots, turns, reset⟩)
    · exact .inl (keeps.done.trans done)

/-- A reset slot is PRESENCE, or its idle check or its presence sample fails (40_buslink.md R107). -/
theorem not_present_iff : ∀ p idle : Bool, ¬ (p = false ∧ idle = true) ↔ idle = false ∨ p = true := by decide

/-- After a reset slot that is not PRESENCE, OW_SNEXT performs no other slot (43_romsearch.md R186). -/
theorem owSnext_of_resetFailed {o : Oracle} {s : State} (fresh : s.done = false)
    (failed : o s.trace .idle = false ∨ o s.trace .presence = true) :
    owSnext o s = complete .notFound (slotReset o s).2 := by
  have outcome := mt (resetOutcome_eq_presence _ _).1 ((not_present_iff _ _).2 failed)
  rw [owSnext_eq, if_neg (Bool.eq_false_iff.1 fresh), if_pos outcome]
  rfl

/-- Settles O23: OW_SNEXT's own BUS, and the one slot of the path. -/
theorem owSnextResetFailurePath : Obligations.OwSnextResetFailurePath :=
  ⟨exec_eq_next .owSnext, fun _ _ => owSnext_of_resetFailed⟩

/-- OW_SNEXT completes FOUND or NOT_FOUND (43_romsearch.md R175). -/
theorem SnextEnd.result {o : Oracle} {s t : State} (h : SnextEnd o s t) :
    t.result = .found ∨ t.result = .notFound := by
  cases h with
  | found => exact .inl rfl
  | _ => exact .inr rfl

/-- Settles O24: OW_SNEXT's row, and what its five ends have in common. -/
theorem owSnextCompletes : Obligations.OwSnextCompletes := by
  refine ⟨fun w row => decode_of_and_tableMask (m := .owSnext) row, fun s => ?_⟩
  have ends := owSnext_ends (busOracle s) s
  refine ⟨_, exec_eq_next .owSnext s, ends.result, ends.frame, fun notFound => ?_⟩
  exact ends.done_eq.trans (if_neg fun found => absurd (found.symm.trans notFound) (by decide))

/-! ### The pass past a reset slot with PRESENCE -/

/-- How a pass of n completed bits ends, in the terms of SearchSpec (43_romsearch.md R178 to R184). -/
structure PassEnd (o : Oracle) (s : State) (n : Nat) (t : State) : Prop where
  completes : SearchSpec.Completes o s n
  stored : ∀ k, 1 ≤ k → k ≤ 64 → romBit t.rom k = if k ≤ n then SearchSpec.dir o s k else romBit s.rom k
  crc : t.crc = crc8 0x00#8 (t.rom.toList.take (n / 8))
  trace : t.trace = SearchSpec.traceAfter o s n ++ if n < 64 then [.r true, .r true] else []
  session :
    if n = 64 ∧ t.crc = 0x00#8 then
      t.result = .found ∧ t.ld = BitVec.ofNat 7 (SearchSpec.marker o s 64) ∧ t.done = decide (t.ld = 0#7)
    else t.result = .notFound ∧ t.ld = 0#7 ∧ t.done = false
  rest : t = { s with
    result := t.result, phase := .idle, done := t.done, crc := t.crc, ld := t.ld, rom := t.rom
    dqDrive := false, trace := t.trace }

/-- Past a reset slot with PRESENCE, OW_SNEXT ends a pass (43_romsearch.md R175). -/
theorem owSnext_passEnd {o : Oracle} {s : State} (fresh : s.done = false)
    (present : o s.trace .presence = false ∧ o s.trace .idle = true) : ∃ n, PassEnd o s n (owSnext o s) := by
  have ends := owSnext_ends o s
  generalize owSnext o s = t at ends ⊢
  cases ends with
  | alreadyDone done => exact absurd (fresh.symm.trans done) (by decide)
  | resetFailed _ failed => exact absurd present failed
  | @aborted _ _ n w completes early walk =>
    refine ⟨n, completes, walk.stored, walk.crc, ?_, ?_, ?_⟩
    · rw [if_pos early, ← walk.trace]; rfl
    · rw [if_neg fun full => early.ne full.1]
      exact ⟨rfl, rfl, walk.done.trans fresh⟩
    · rw [walk.rest]; rfl
  | crcFailed _ _ completes walk crc =>
    refine ⟨64, completes, walk.stored, walk.crc, walk.trace.trans (List.append_nil _).symm, ?_, ?_⟩
    · rw [if_neg fun full => crc full.2]
      exact ⟨rfl, rfl, walk.done.trans fresh⟩
    · rw [walk.rest]; rfl
  | found _ _ completes walk crc =>
    refine ⟨64, completes, walk.stored, walk.crc, walk.trace.trans (List.append_nil _).symm, ?_, ?_⟩
    · rw [if_pos ⟨rfl, crc⟩, ← walk.marker]
      exact ⟨rfl, rfl, walk.doneOf_marker le_rfl⟩
    · rw [walk.rest]; rfl

/-- A marker other than 0 is a collision that resolved to 0 (43_romsearch.md R174). -/
theorem zeroBranch_marker {o : Oracle} {s : State} {k : Nat} (h : SearchSpec.marker o s k ≠ 0) :
    SearchSpec.zeroBranch o s (SearchSpec.marker o s k) = true := by
  induction k with
  | zero => exact absurd rfl h
  | succ k ih =>
    rw [SearchSpec.marker] at h ⊢
    split at h
    next zero => rw [if_pos zero, zero]
    next other => rw [if_neg other, ih h]

/-- No collision past the marker resolved to 0 (43_romsearch.md R174). -/
theorem zeroBranch_after_marker {o : Oracle} {s : State} {j k : Nat} (after : SearchSpec.marker o s k < j)
    (le : j ≤ k) : SearchSpec.zeroBranch o s j = false := by
  induction k with
  | zero => omega
  | succ k ih =>
    rw [SearchSpec.marker] at after
    split at after
    next => omega
    next other =>
      rcases Nat.lt_or_eq_of_le le with earlier | rfl
      · exact ih after (Nat.le_of_lt_succ earlier)
      · exact Bool.eq_false_iff.2 other

/-- The marker of a full pass stands in LD as it is (10_state.md R32). -/
theorem toNat_ofNat_marker (o : Oracle) (s : State) :
    (BitVec.ofNat 7 (SearchSpec.marker o s 64)).toNat = SearchSpec.marker o s 64 := by
  have le := marker_le o s 64
  rw [BitVec.toNat_ofNat]
  omega

/-- Settles O25: the end of the pass, with LD as the last collision that resolved to 0. -/
theorem owSnextFollowsBitSpec : Obligations.OwSnextFollowsBitSpec := by
  refine ⟨exec_eq_next .owSnext, fun o s fresh p idle => ?_⟩
  obtain ⟨n, pass⟩ := owSnext_passEnd fresh ⟨p, idle⟩
  refine ⟨n, pass.completes, pass.stored, pass.crc, pass.trace, ?_, pass.rest⟩
  have session := pass.session
  split at session
  next full =>
    obtain ⟨found, ld, done⟩ := session
    have last : (owSnext o s).ld.toNat = SearchSpec.marker o s 64 := by rw [ld, toNat_ofNat_marker]
    rw [if_pos full, last]
    exact ⟨found, done,
      fun collided => ⟨marker_le o s 64, zeroBranch_marker fun zero => collided (by rw [ld, zero])⟩,
      fun _ => zeroBranch_after_marker⟩
  next other => rwa [if_neg other]

/-! ### The slots of a pass -/

/-- The reset slot and the SearchROM byte are nine slots, and each completed bit is three (43_romsearch.md R177,
R179). -/
theorem length_traceAfter (o : Oracle) (s : State) (k : Nat) :
    (SearchSpec.traceAfter o s k).length = s.trace.length + (3 * k + 9) := by
  induction k with
  | zero => simp [SearchSpec.traceAfter, SearchSpec.start]
  | succ k ih =>
    rw [SearchSpec.traceAfter, List.length_append, ih, Nat.add_assoc]
    simp only [List.length_cons, List.length_nil]
    omega

/-- The trace of a pass is what it started from and the slots of its bits. -/
theorem traceAfter_eq_append (o : Oracle) (s : State) (k : Nat) :
    ∃ slots, SearchSpec.traceAfter o s k = s.trace ++ slots ∧ slots.length = 3 * k + 9 := by
  obtain ⟨slots, trace⟩ := trace_prefix_traceAfter o s k
  have length := length_traceAfter o s k
  rw [← trace, List.length_append] at length
  exact ⟨slots, trace.symm, Nat.add_left_cancel length⟩

/-- Settles O26: no slot, the reset slot, or those of the completed bits, with two more at an abort. -/
theorem owSnextSlotsPerPath : Obligations.OwSnextSlotsPerPath := by
  intro o s
  split
  next done => exact ⟨[], by rw [owSnext_of_done o done, complete_trace, List.append_nil], rfl⟩
  next fresh =>
    have fresh := Bool.eq_false_iff.2 fresh
    split
    next failed => exact ⟨_, by rw [owSnext_of_resetFailed fresh failed, slotReset_eq, complete_trace], rfl⟩
    next present =>
      obtain ⟨n, pass⟩ := owSnext_passEnd fresh (not_not.1 (mt (not_present_iff _ _).1 present))
      obtain ⟨slots, trace, count⟩ := traceAfter_eq_append o s n
      refine ⟨slots ++ if n < 64 then [.r true, .r true] else [], ?_, ?_⟩
      · rw [pass.trace, trace, List.append_assoc]
      · split
        next early =>
          exact .inr ⟨n + 1, by omega, by omega, by rw [List.length_append, count]; rfl, slots, rfl⟩
        next full =>
          obtain rfl : n = 64 := Nat.le_antisymm pass.completes.atMost (not_lt.1 full)
          exact .inl (by rw [List.append_nil, count])

/-! ### What a pass depends on -/

/-- A pass goes no further than any (1,1) pair it stopped at (43_romsearch.md R178). -/
theorem completes_le {o : Oracle} {s : State} {m n : Nat} (hm : SearchSpec.Completes o s m)
    (hn : SearchSpec.Completes o s n) : n ≤ m := by
  by_contra more
  have past : m + 1 ≤ n := not_le.1 more
  have goesOn := hn.goesOn (m + 1) (Nat.le_add_left 1 m) past
  rw [hm.stopped (past.trans hn.atMost)] at goesOn
  cases goesOn

/-- A pass completes one number of bits. -/
theorem completes_unique {o : Oracle} {s : State} {m n : Nat} (hm : SearchSpec.Completes o s m)
    (hn : SearchSpec.Completes o s n) : m = n :=
  Nat.le_antisymm (completes_le hn hm) (completes_le hm hn)

/-! Two states with one trace whose branches agree take the same pass over a BUS, whatever else they differ in. -/

section SameBranches

variable {o : Oracle} {s s' : State} (trace : s.trace = s'.trace)
  (branches : SearchSpec.branch s = SearchSpec.branch s')

include trace branches

/-- A pass appends by the BUS's answers and its branches alone (43_romsearch.md R179). -/
theorem traceAfter_congr : SearchSpec.traceAfter o s = SearchSpec.traceAfter o s' := by
  funext k
  induction k with
  | zero => simp only [SearchSpec.traceAfter, SearchSpec.start, trace]
  | succ k ih => simp only [SearchSpec.traceAfter, ih, branches]

theorem idBit_congr : SearchSpec.idBit o s = SearchSpec.idBit o s' := by
  funext k
  simp only [SearchSpec.idBit, traceAfter_congr trace branches]

theorem cmpBit_congr : SearchSpec.cmpBit o s = SearchSpec.cmpBit o s' := by
  funext k
  simp only [SearchSpec.cmpBit, traceAfter_congr trace branches, idBit_congr trace branches]

theorem dir_congr : SearchSpec.dir o s = SearchSpec.dir o s' := by
  funext k
  simp only [SearchSpec.dir, branches, idBit_congr trace branches, cmpBit_congr trace branches]

theorem zeroBranch_congr : SearchSpec.zeroBranch o s = SearchSpec.zeroBranch o s' := by
  funext k
  simp only [SearchSpec.zeroBranch, idBit_congr trace branches, cmpBit_congr trace branches, dir_congr trace branches]

theorem marker_congr : SearchSpec.marker o s = SearchSpec.marker o s' := by
  funext k
  induction k with
  | zero => rfl
  | succ k ih => rw [SearchSpec.marker, SearchSpec.marker, ih, zeroBranch_congr trace branches]

theorem completes_congr {n : Nat} (h : SearchSpec.Completes o s n) : SearchSpec.Completes o s' n := by
  have stops : SearchSpec.stops o s = SearchSpec.stops o s' := by
    funext k
    simp only [SearchSpec.stops, idBit_congr trace branches, cmpBit_congr trace branches]
  obtain ⟨atMost, goesOn, stopped⟩ := h
  exact ⟨atMost, stops ▸ goesOn, stops ▸ stopped⟩

/-- Two passes with the same answers and branches end alike, but for the bits that neither completed. -/
theorem PassEnd.congr {n n' : Nat} {t t' : State} (pass : PassEnd o s n t) (pass' : PassEnd o s' n' t') :
    t.result = t'.result ∧ t.ld = t'.ld ∧ t.done = t'.done ∧ t.crc = t'.crc ∧ t.trace = t'.trace ∧
      (t.result = .found → t.rom = t'.rom) := by
  obtain rfl : n = n' := completes_unique (completes_congr trace branches pass.completes) pass'.completes
  have atMost := pass.completes.atMost
  have stored : ∀ k, 1 ≤ k → k ≤ n → romBit t.rom k = romBit t'.rom k := fun k pos le => by
    rw [pass.stored k pos (le.trans atMost), pass'.stored k pos (le.trans atMost), if_pos le, if_pos le,
      dir_congr trace branches]
  have crc : t.crc = t'.crc := by
    rw [pass.crc, pass'.crc, rom_take_ext t.rom t'.rom (n / 8) (by omega) fun k pos le => stored k pos (by omega)]
  have events : t.trace = t'.trace := by rw [pass.trace, pass'.trace, traceAfter_congr trace branches]
  have session := pass.session
  have session' := pass'.session
  rw [← crc, ← marker_congr trace branches] at session'
  split at session
  next full =>
    obtain ⟨found, ld, done⟩ := session
    obtain ⟨found', ld', done'⟩ := (if_pos full).mp session'
    have sameLd := ld.trans ld'.symm
    refine ⟨found.trans found'.symm, sameLd, by rw [done, done', sameLd], crc, events, fun _ => ?_⟩
    exact rom_ext _ _ (full.1 ▸ stored)
  next other =>
    obtain ⟨notFound, ld, done⟩ := session
    obtain ⟨notFound', ld', done'⟩ := (if_neg other).mp session'
    exact ⟨notFound.trans notFound'.symm, ld.trans ld'.symm, done.trans done'.symm, crc, events,
      fun found => absurd (found.symm.trans notFound) (by decide)⟩

end SameBranches

/-- With LD = 0 no collision replays a stored bit (43_romsearch.md R174). -/
theorem branch_of_ld_zero {s : State} (ld : s.ld = 0#7) (rom : Vector Byte 8) :
    SearchSpec.branch s = SearchSpec.branch { s with rom := rom } := by
  funext k idBit cmpBit
  have none : ¬ k < s.ld.toNat := by rw [ld]; exact Nat.not_lt_zero k
  simp only [SearchSpec.branch, if_neg none]

/-- Settles O28: on each path of OW_SNEXT, by the branches of a pass with LD = 0. -/
theorem freshPassIgnoresOldBuffer : Obligations.FreshPassIgnoresOldBuffer := by
  intro o s rom ld
  by_cases done : s.done = true
  · rw [owSnext_of_done o done, owSnext_of_done o (s := { s with rom := rom }) done]
    exact ⟨rfl, rfl, rfl, rfl, rfl, nofun⟩
  · have fresh := Bool.eq_false_iff.2 done
    by_cases present : o s.trace .presence = false ∧ o s.trace .idle = true
    · obtain ⟨n, pass⟩ := owSnext_passEnd fresh present
      obtain ⟨n', pass'⟩ := owSnext_passEnd (s := { s with rom := rom }) fresh present
      exact pass.congr (s := s) (s' := { s with rom := rom }) rfl (branch_of_ld_zero ld rom) pass'
    · have failed := (not_present_iff _ _).1 present
      rw [owSnext_of_resetFailed fresh failed, owSnext_of_resetFailed (s := { s with rom := rom }) fresh failed]
      exact ⟨rfl, rfl, rfl, rfl, rfl, nofun⟩

end Sys2Proof.Machine

/-! Exceptions and completion (60_exceptions.md): the illegal word (O7), what each command writes (O45), the bound on its
slots (O46), and the HOST that keeps its duty (O50). -/

namespace Sys2Proof.Machine

/-! ### Illegal words -/

/-- CMD is the low byte of the command word (20_memory.md R61). -/
@[simp] theorem extractLsb'_commandWord (arg cmd : Byte) : (commandWord arg cmd).extractLsb' 0 8 = cmd :=
  BitVec.extractLsb'_append_eq_right

/-- Settles O7: the ENGINE's step of an illegal word; under the invariant the latch is what ARG and CMD hold. -/
theorem illegalCommandCompletesIllegal : Obligations.IllegalCommandCompletesIllegal := by
  refine ⟨rfl, fun s turns why moves illegal => ⟨?_, fun inv => ?_⟩⟩
  · exact (step_engineMoves moves).trans (engineStep_illegal (s := { s with schedule := turns }) illegal)
  · rw [inv.latched moves.1, extractLsb'_commandWord, argField_commandWord]
    exact ⟨rfl, rfl⟩

/-! ### What each command writes -/

section Writes

variable {i : Instr} (s : State)

/-- Only OW_RBIT and OW_RBYTE write DATA (10_state.md R38). -/
theorem commandEnd_data (bit : i.mnemonic ≠ .owRbit) (byte : i.mnemonic ≠ .owRbyte) :
    (commandEnd s i).data = s.data := by
  cases i with
  | owRbit => exact absurd rfl bit
  | owRbyte => exact absurd rfl byte
  | owSnext => exact (congrArg State.data (owSnext_ends _ s).frame :)
  | owWbyte v => rw [commandEnd, owWbyte_eq]
  | _ => rfl

/-- Only OW_CRCLD, OW_CRCUP and OW_SNEXT write CRC (10_state.md R38). -/
theorem commandEnd_crc (load : i.mnemonic ≠ .owCrcld) (update : i.mnemonic ≠ .owCrcup)
    (snext : i.mnemonic ≠ .owSnext) : (commandEnd s i).crc = s.crc := by
  cases i with
  | owCrcld v => exact absurd rfl load
  | owCrcup v => exact absurd rfl update
  | owSnext => exact absurd rfl snext
  | owWbyte v => rw [commandEnd, owWbyte_eq]
  | owRbyte => rw [commandEnd, owRbyte_eq]
  | _ => rfl

/-- Only OW_SRST and OW_SNEXT write LD (10_state.md R38). -/
theorem commandEnd_ld (srst : i.mnemonic ≠ .owSrst) (snext : i.mnemonic ≠ .owSnext) :
    (commandEnd s i).ld = s.ld := by
  cases i with
  | owSrst => exact absurd rfl srst
  | owSnext => exact absurd rfl snext
  | owWbyte v => rw [commandEnd, owWbyte_eq]
  | owRbyte => rw [commandEnd, owRbyte_eq]
  | _ => rfl

/-- Only OW_SNEXT writes the buffer (10_state.md R38). -/
theorem commandEnd_rom (snext : i.mnemonic ≠ .owSnext) : (commandEnd s i).rom = s.rom := by
  cases i with
  | owSnext => exact absurd rfl snext
  | owWbyte v => rw [commandEnd, owWbyte_eq]
  | owRbyte => rw [commandEnd, owRbyte_eq]
  | _ => rfl

/-- OW_CRCLD, OW_CRCUP and OW_SRST leave the bus alone (10_state.md R38). -/
theorem commandEnd_bus (slotless : i.mnemonic = .owCrcld ∨ i.mnemonic = .owCrcup ∨ i.mnemonic = .owSrst) :
    (commandEnd s i).trace = s.trace ∧ (commandEnd s i).dqDrive = s.dqDrive := by
  cases i with
  | owCrcld v => exact ⟨rfl, rfl⟩
  | owCrcup v => exact ⟨rfl, rfl⟩
  | owSrst => exact ⟨rfl, rfl⟩
  | _ => rcases slotless with h | h | h <;> cases h

/-- The three classes of a reset slot (40_buslink.md R107). -/
theorem resetOutcome_cases : ∀ p idle : Bool, resetOutcome p idle = .presence ∨
    resetOutcome p idle = .noPresence ∨ resetOutcome p idle = .busError := by
  decide

/-- A command other than OW_RESET and OW_SNEXT completes OK (10_state.md R38). -/
theorem commandEnd_ok (reset : i.mnemonic ≠ .owReset) (snext : i.mnemonic ≠ .owSnext) :
    (commandEnd s i).result = .ok := by
  cases i with
  | owReset => exact absurd rfl reset
  | owSnext => exact absurd rfl snext
  | _ => rfl

/-- OW_RESET completes with the class of its slot (10_state.md R38). -/
theorem commandEnd_resetResult (reset : i.mnemonic = .owReset) : (commandEnd s i).result = .presence ∨
    (commandEnd s i).result = .noPresence ∨ (commandEnd s i).result = .busError := by
  cases i with
  | owReset => exact resetOutcome_cases _ _
  | _ => cases reset

/-- OW_SNEXT completes FOUND or NOT_FOUND (10_state.md R38). -/
theorem commandEnd_snextResult (snext : i.mnemonic = .owSnext) :
    (commandEnd s i).result = .found ∨ (commandEnd s i).result = .notFound := by
  cases i with
  | owSnext => exact (owSnext_ends _ s).result
  | _ => cases snext

end Writes

/-- Settles O45: the frame of every command, column by column of the spec's table, and the illegal word. -/
theorem commandsWriteOnlyTheirState : Obligations.CommandsWriteOnlyTheirState := by
  refine ⟨fun i s t h => ?_, fun s why => engineStep_illegal⟩
  obtain rfl := Host.Outcome.next.inj ((exec_eq_next i s).symm.trans h)
  have session (srst : i.mnemonic ≠ .owSrst) (snext : i.mnemonic ≠ .owSnext) :
      (commandEnd s i).ld = s.ld ∧ (commandEnd s i).done = s.done :=
    ⟨commandEnd_ld s srst snext,
      commandEnd_done s (mt (congrArg Instr.mnemonic) srst) (mt (congrArg Instr.mnemonic) snext)⟩
  exact ⟨commandEnd_frame i s, commandEnd_data s, commandEnd_crc s, session, commandEnd_rom s, commandEnd_bus s,
    commandEnd_resetResult s, commandEnd_snextResult s, commandEnd_ok s⟩

/-! ### The slots of a command -/

/-- OW_SNEXT performs at most 201 slots: those of a full pass (43_romsearch.md R189). -/
theorem owSnext_slots_le (o : Oracle) (s : State) :
    ∃ es : List BusEvent, (owSnext o s).trace = s.trace ++ es ∧ es.length ≤ 201 := by
  obtain ⟨es, trace, path⟩ := owSnextSlotsPerPath o s
  refine ⟨es, trace, ?_⟩
  split at path
  next done => exact path ▸ Nat.zero_le 201
  next fresh =>
    split at path
    next failed => exact path ▸ Nat.one_le_ofNat
    next present =>
      rcases path with full | ⟨k, -, le, count, -⟩
      · exact full.le
      · omega

/-- A command performs at most 201 slots, whatever the BUS answers (60_exceptions.md R227). -/
theorem commandEnd_slots_le (i : Instr) (s : State) :
    ∃ es : List BusEvent, (commandEnd s i).trace = s.trace ++ es ∧ es.length ≤ 201 := by
  cases i with
  | owReset => exact ⟨[_], by rw [commandEnd, owReset_eq], Nat.one_le_ofNat⟩
  | owWbit b => exact ⟨[_], by rw [commandEnd, owWbit_eq], Nat.one_le_ofNat⟩
  | owRbit => exact ⟨[_], by rw [commandEnd, owRbit_eq], Nat.one_le_ofNat⟩
  | owWbyte v => exact ⟨_, by rw [commandEnd, owWbyte_eq], by simp⟩
  | owRbyte => exact ⟨_, by rw [commandEnd, owRbyte_eq], by simp⟩
  | owSnext => exact owSnext_slots_le _ s
  | _ => exact ⟨[], (List.append_nil _).symm, Nat.zero_le 201⟩

/-- Settles O46: every command answers, completes, and performs at most the slots of a full pass. -/
theorem commandsAlwaysComplete : Obligations.CommandsAlwaysComplete := by
  intro i s
  obtain ⟨es, trace, count⟩ := commandEnd_slots_le i s
  exact ⟨commandEnd s i, es, exec_eq_next i s, commandEnd_phase i s, trace, count⟩

/-! ### A HOST that keeps its duty -/

/-- BUSY = 0 is phase IDLE (10_state.md R43). -/
theorem idle_of_not_busy {s : State} (free : s.busy = false) : s.phase = .idle := by
  cases phase : s.phase with
  | idle => rfl
  | running => exact absurd (free.symm.trans (busy_of_running phase)) (by decide)

/-- The ENGINE's step always answers a next state (60_exceptions.md R214). -/
theorem engineStep_answers (s : State) : ∃ t, engineStep s = .next t := by
  match hd : decode s.lcmd with
  | .command i => exact ⟨_, (engineStep_command hd).trans (exec_eq_next i s)⟩
  | .illegal _ => exact ⟨_, engineStep_illegal hd⟩

/-- The turn of a HOST that keeps its duty answers a next state (60_exceptions.md R213). -/
theorem hostTurn_answers {s : State} (duty : HostDuty s) : ∃ t, hostTurn s = .next t := by
  unfold HostDuty at duty
  split at duty
  next ended => exact ⟨_, hostTurn_ended ended⟩
  next read =>
    obtain ⟨rfl, inside⟩ := duty
    exact ⟨_, (hostTurn_read read).trans (hostRead_byte _ s inside)⟩
  next write =>
    obtain ⟨rfl, inside, free⟩ := duty
    exact ⟨_, (hostTurn_write write).trans (hostWrite_byte inside (idle_of_not_busy free))⟩
  next poll => exact ⟨_, hostTurn_poll poll⟩
  next own => exact ⟨_, hostTurn_own own⟩

/-- Any turn answers a next state, where the HOST keeps its duty. -/
theorem takeTurn_answers (turn : Turn) {s : State} (duty : HostDuty s) : ∃ t, takeTurn turn s = .next t := by
  cases turn with
  | engine =>
    rw [takeTurn, engineTurn]
    split
    · exact engineStep_answers s
    · exact ⟨s, rfl⟩
  | host => exact hostTurn_answers duty
  | hardwareReset slots => exact ⟨_, rfl⟩

/-- Settles O50: the turn that is scheduled, or with none the ENGINE's or the HOST's by the phase. -/
theorem dutifulHostNeverStops : Obligations.DutifulHostNeverStops := by
  intro s duty
  match turns : s.schedule with
  | [] =>
    cases phase : s.phase with
    | running => rw [SafeStep, step_running phase turns]; exact engineStep_answers s
    | idle => rw [SafeStep, step_idle phase turns]; exact hostTurn_answers duty
  | turn :: rest =>
    rw [SafeStep, step_scheduled turns]
    exact takeTurn_answers turn (s := { s with schedule := rest }) duty

end Sys2Proof.Machine

/-! Reset and hazards (70_reset_and_hazards.md): the state after reset (O40, O42), the command that a hardware reset
cuts short (O41), and the nominal durations (O52). -/

namespace Sys2Proof.Machine

/-! ### The reset values -/

/-- A hardware reset gives every value of the reset table, whatever it interrupts (70_reset_and_hazards.md R240). -/
theorem isResetState_hardwareReset (slots : Nat) (s : State) : IsResetState (hardwareReset slots s) :=
  { isResetState_reset with }

/-- Settles O42: the invariant of a hardware reset's state, of which the state after reset is one. -/
theorem resetMeetsInvariant : Obligations.ResetMeetsInvariant :=
  inv_hardwareReset 0 (s := State.reset) ⟨cellsWf_nil, cellsWf_nil⟩

/-! ### A hardware reset turn -/

/-- A scheduled hardware reset is the step (70_reset_and_hazards.md R241). -/
theorem step_hardwareReset {s : State} {slots : Nat} {turns : List Turn}
    (reset : s.schedule = .hardwareReset slots :: turns) :
    step s = .next (hardwareReset slots { s with schedule := turns }) :=
  step_scheduled reset

/-- While IDLE a hardware reset leaves the trace as it is (70_reset_and_hazards.md R242). -/
theorem hardwareReset_trace_idle (slots : Nat) {s : State} (idle : s.phase = .idle) :
    (hardwareReset slots s).trace = s.trace := by
  have noEvents : resetEvents slots s = [] := if_neg (by rw [busy_of_idle idle]; decide)
  show s.trace ++ resetEvents slots s = s.trace
  rw [noEvents, List.append_nil]

/-- The command's events are those by which its completion extends the trace. -/
theorem commandEvents_eq {s u : State} {es : List BusEvent} (engine : engineStep s = .next u)
    (trace : u.trace = s.trace ++ es) : commandEvents s = es := by
  rw [commandEvents, engine]
  show u.trace.drop s.trace.length = es
  rw [trace, List.drop_left]

/-- While RUNNING a hardware reset appends the command's first slots, and ABORT where slots are missing
(70_reset_and_hazards.md R242). -/
theorem hardwareReset_trace_running (slots : Nat) {s u : State} {es : List BusEvent} (running : s.phase = .running)
    (engine : engineStep s = .next u) (trace : u.trace = s.trace ++ es) :
    (hardwareReset slots s).trace =
      s.trace ++ es.take slots ++ (if slots < es.length then [.abort] else []) := by
  show s.trace ++ resetEvents slots s = _
  rw [resetEvents, if_pos (busy_of_running running), commandEvents_eq engine trace, List.append_assoc]

/-- Settles O40: the reset values, which all sixteen offsets read as 0x00, and the reset turn in either phase. -/
theorem hardwareResetGivesTheResetState : Obligations.HardwareResetGivesTheResetState :=
  ⟨isResetState_reset, by decide, fun s slots turns reset =>
    ⟨_, step_hardwareReset reset, isResetState_hardwareReset slots _, List.prefix_append _ _,
      hardwareReset_trace_idle slots (s := { s with schedule := turns })⟩⟩

/-- Settles O41: the command's own completion tells its events, of which the reset turn appends the first. -/
theorem hardwareResetAbandonsTheCommand : Obligations.HardwareResetAbandonsTheCommand := by
  intro s slots turns running reset
  obtain ⟨u, engine⟩ := engineStep_answers { s with schedule := turns }
  obtain ⟨es, trace⟩ := engineStep_trace_prefix engine
  exact ⟨u, _, es, engine, trace.symm, step_hardwareReset reset, isResetState_hardwareReset slots _,
    fun _ => hardwareReset_trace_running slots (s := { s with schedule := turns }) running engine trace.symm⟩

/-! ### The nominal durations -/

/-- A write or read slot lasts 70 microseconds (70_reset_and_hazards.md R257). -/
theorem slotMicros_nominal_bit (b : Bool) :
    slotMicros Config.nominal (.w b) = 70 ∧ slotMicros Config.nominal (.r b) = 70 := by
  cases b <;> exact ⟨rfl, rfl⟩

/-- Write and read slots last 70 microseconds each (70_reset_and_hazards.md R257). -/
theorem slotsMicros_nominal_bits {es : List BusEvent} (bits : ∀ e ∈ es, ∃ b, e = .w b ∨ e = .r b) :
    slotsMicros Config.nominal es = es.length * 70 := by
  have each : ∀ n ∈ es.map (slotMicros Config.nominal), n = 70 := by
    intro n hn
    obtain ⟨e, he, rfl⟩ := List.mem_map.1 hn
    obtain ⟨b, rfl | rfl⟩ := bits e he
    · exact (slotMicros_nominal_bit b).1
    · exact (slotMicros_nominal_bit b).2
  rw [slotsMicros, List.sum_eq_card_nsmul _ 70 each, List.length_map, smul_eq_mul]

/-- A sequence of write slots lasts 70 microseconds a bit, without gaps. -/
theorem slotsMicros_nominal_writes (bits : List Bool) :
    slotsMicros Config.nominal (bits.map .w) = bits.length * 70 := by
  rw [slotsMicros_nominal_bits (List.forall_mem_map.2 fun b _ => ⟨b, .inl rfl⟩), List.length_map]

/-- A sequence of read slots lasts 70 microseconds a bit, without gaps. -/
theorem slotsMicros_nominal_reads (bits : List Bool) :
    slotsMicros Config.nominal (bits.map .r) = bits.length * 70 := by
  rw [slotsMicros_nominal_bits (List.forall_mem_map.2 fun b _ => ⟨b, .inr rfl⟩), List.length_map]

/-- A reset slot lasts 950 microseconds without its idle check (70_reset_and_hazards.md R257), and slots follow it
without a gap. -/
theorem slotsMicros_nominal_rst_cons (p idle : Bool) (es : List BusEvent) :
    slotsMicros Config.nominal (.rst p idle :: es) = 950 + slotsMicros Config.nominal es :=
  List.sum_cons

/-- Settles O52: the slots' lengths by their number, and the seven gaps of a byte (41_bytecodec.md R132). -/
theorem nominalDurations : Obligations.NominalDurations := by
  refine ⟨fun _ _ => rfl, slotMicros_nominal_bit, rfl, fun v => ?_, fun vs eight => ?_, fun p idle es count bits => ?_⟩
  · rw [commandMicros, slotsMicros_nominal_writes, wireBits_length]
    rfl
  · rw [commandMicros, slotsMicros_nominal_reads, eight]
    rfl
  · rw [commandMicros, slotsMicros_nominal_rst_cons, slotsMicros_nominal_bits bits, count,
      gapMicros, if_pos (by simp [count])]
    rfl

end Sys2Proof.Machine

/-! The search as a whole (43_romsearch.md section 5): what a pass depends on (O27), what it returns on the
reference bus, and from that the single device (O29) and the discovery of every device (O30). -/

namespace Sys2Proof.Machine

/-! ### A pass from the same session and buffer -/

/-- The branches of a pass depend on LD and the buffer alone (43_romsearch.md R173, R174). -/
theorem branch_congr {s s' : State} (ld : s.ld = s'.ld) (rom : s.rom = s'.rom) :
    SearchSpec.branch s = SearchSpec.branch s' := by
  funext k idBit cmpBit
  simp only [SearchSpec.branch, ld, rom]

/-- Two passes with the same answers and branches leave the same buffer, where they start from the same one. -/
theorem PassEnd.rom_congr {o : Oracle} {s s' t t' : State} {n n' : Nat} (trace : s.trace = s'.trace)
    (branches : SearchSpec.branch s = SearchSpec.branch s') (rom : s.rom = s'.rom) (pass : PassEnd o s n t)
    (pass' : PassEnd o s' n' t') : t.rom = t'.rom := by
  obtain rfl : n = n' := completes_unique (completes_congr trace branches pass.completes) pass'.completes
  refine rom_ext _ _ fun k pos le => ?_
  rw [pass.stored k pos le, pass'.stored k pos le, dir_congr trace branches, rom]

/-- OW_SNEXT over a BUS is a function of the trace, LD, DONE and the buffer (43_romsearch.md R191). -/
theorem owSnext_congr (o : Oracle) {s s' : State} (trace : s.trace = s'.trace) (ld : s.ld = s'.ld)
    (done : s.done = s'.done) (rom : s.rom = s'.rom) :
    (owSnext o s).result = (owSnext o s').result ∧ (owSnext o s).trace = (owSnext o s').trace ∧
      (owSnext o s).ld = (owSnext o s').ld ∧ (owSnext o s).done = (owSnext o s').done ∧
      (owSnext o s).rom = (owSnext o s').rom := by
  by_cases isDone : s.done = true
  · rw [owSnext_of_done o isDone, owSnext_of_done o (done ▸ isDone)]
    exact ⟨rfl, trace, ld, done, rom⟩
  · have fresh := Bool.eq_false_iff.2 isDone
    have fresh' := done ▸ fresh
    by_cases present : o s.trace .presence = false ∧ o s.trace .idle = true
    · have branches := branch_congr ld rom
      obtain ⟨n, pass⟩ := owSnext_passEnd fresh present
      obtain ⟨n', pass'⟩ := owSnext_passEnd fresh' (trace ▸ present)
      obtain ⟨result, ld', done', -, trace', -⟩ := pass.congr trace branches pass'
      exact ⟨result, trace', ld', done', pass.rom_congr trace branches rom pass'⟩
    · have failed := (not_present_iff _ _).1 present
      rw [owSnext_of_resetFailed fresh failed, owSnext_of_resetFailed fresh' (trace ▸ failed), slotReset_eq,
        slotReset_eq, ← trace]
      exact ⟨rfl, rfl, ld, done, rom⟩

/-- Settles O27: the two states have one number, and so one BUS. -/
theorem searchPassIsAFunctionOfSessionBufferAndAnswers :
    Obligations.SearchPassIsAFunctionOfSessionBufferAndAnswers := by
  intro s₁ s₂ inst trace ld done rom
  have bus : busOracle s₁ = busOracle s₂ := congrArg Config.busSample inst
  refine ⟨_, _, exec_eq_next .owSnext s₁, exec_eq_next .owSnext s₂, ?_⟩
  rw [commandEnd, commandEnd, bus]
  exact owSnext_congr _ trace ld done rom

end Sys2Proof.Machine

namespace Sys2Proof.RefBus

open Sys2Proof.Machine

/-! ### The path of a pass -/

/-- `before a b` where b leaves a upwards. -/
theorem Up.before {a b : Vector Byte 8} {k : Nat} (up : Up a k b) (pos : 1 ≤ k) (le : k ≤ 64) :
    before a b = true :=
  (before_iff_up a b).2 ⟨k, pos, le, up⟩

/-- What leaves `a` upwards earlier than `b` does, leaves `b` upwards too. -/
theorem Up.of_earlier {a b d : Vector Byte 8} {k l : Nat} (up : Up a l b) (earlier : Up a k d) (pos : 1 ≤ k)
    (lt : k < l) : Up b k d := by
  obtain ⟨agree, -, -⟩ := up
  obtain ⟨agree', zero, one⟩ := earlier
  exact ⟨fun j hj hjk => (agree' j hj hjk).trans (agree j hj (hjk.trans lt)).symm, (agree k pos lt).trans zero, one⟩

/-- Two that leave `a` upwards at the same bit agree up to that bit. -/
theorem Up.agree {a b d : Vector Byte 8} {k j : Nat} (up : Up a k b) (up' : Up a k d) (pos : 1 ≤ j) (le : j ≤ k) :
    romBit d j = romBit b j := by
  obtain ⟨below, -, one⟩ := up
  obtain ⟨below', -, one'⟩ := up'
  rcases Nat.lt_or_eq_of_le le with lt | rfl
  · exact (below' j pos lt).trans (below j pos lt).symm
  · exact one'.trans one.symm

/-- A device that agrees with one on the path up to a bit is on the path up to that bit. -/
theorem OnPath.of_agree {o : Oracle} {s : State} {b d : Vector Byte 8} {k n : Nat} (path : OnPath o s n b)
    (le : k ≤ n) (agree : ∀ j, 1 ≤ j → j < k → romBit d j = romBit b j) : OnPath o s (k - 1) d :=
  fun j pos hj => (agree j pos (by omega)).trans (path j pos (by omega))

section Pass

variable {D : List (Vector Byte 8)} {s : State} {b d : Vector Byte 8}

/-- With a device on the path to the end, no (1,1) pair stops the pass. -/
theorem completes_of_onPath {n : Nat} (hb : b ∈ D) (path : OnPath (searchBus D) s 64 b)
    (pass : SearchSpec.Completes (searchBus D) s n) : n = 64 := by
  by_contra short
  have early : n < 64 := lt_of_le_of_ne pass.atMost short
  have goesOn := (dir_cases D s (n + 1) (by omega) early b hb (path.of_agree early fun _ _ _ => rfl)).1
  rw [pass.stopped early] at goesOn
  cases goesOn

/-- At the bits where a pass resolves a collision to 0, and only there, some device leaves the path upwards
(43_romsearch.md R174). -/
theorem zeroBranch_iff_up (hb : b ∈ D) (path : OnPath (searchBus D) s 64 b) {k : Nat} (pos : 1 ≤ k) (le : k ≤ 64) :
    SearchSpec.zeroBranch (searchBus D) s k = true ↔ ∃ d ∈ D, Up b k d := by
  obtain ⟨-, ⟨agree, zero⟩ | ⟨⟨d, hd, onPath, one⟩, -, -, zero⟩⟩ :=
    dir_cases D s k pos le b hb (path.of_agree le fun _ _ _ => rfl)
  · rw [zero]
    refine ⟨nofun, fun ⟨d, hd, below, off, on⟩ => ?_⟩
    have same := (agree d hd (path.of_agree le below)).trans (path k pos le).symm
    rw [on, off] at same
    cases same
  · rw [zero, ← path k pos le, Bool.not_eq_true']
    refine ⟨fun off => ⟨d, hd, fun j hj hjk => ?_, off, one⟩, fun ⟨_, _, _, off, _⟩ => off⟩
    exact (onPath j hj (by omega)).trans (path j hj (by omega)).symm

/-- Beyond LD a collision resolves to 0, so the device that a pass returns is the first of those that are on its
path up to LD (43_romsearch.md R174). -/
theorem eq_or_before_of_onPath_ld (hb : b ∈ D) (path : OnPath (searchBus D) s 64 b) (hd : d ∈ D)
    (upToLd : OnPath (searchBus D) s s.ld.toNat d) : d = b ∨ before b d = true := by
  by_cases same : d = b
  · exact .inl same
  · obtain ⟨k, pos, le, below, differ⟩ := first_difference same
    have beyond : s.ld.toNat < k := not_le.1 fun within =>
      differ ((upToLd k pos within).trans (path k pos le).symm)
    obtain ⟨-, ⟨agree, -⟩ | ⟨-, -, dir, -⟩⟩ := dir_cases D s k pos le b hb (path.of_agree le fun _ _ _ => rfl)
    · exact absurd ((agree d hd (path.of_agree le below)).trans (path k pos le).symm) differ
    · rw [if_neg beyond.le.not_gt, decide_eq_false beyond.ne', ← path k pos le] at dir
      exact .inr (Up.before ⟨below, dir, by simpa [dir] using differ⟩ pos le)

end Pass

/-! ### What a pass returns -/

/-- What a pass that returned a device leaves: the device in the buffer, and in LD the last bit at which another
device leaves it upwards, or 0 with DONE = 1 where none does (43_romsearch.md R174, R184). -/
structure Returned (D : List (Vector Byte 8)) (t : State) : Prop where
  found : t.result = .found
  idle : t.phase = .idle
  device : t.rom ∈ D
  done : t.done = decide (t.ld = 0#7)
  exit : t.ld ≠ 0#7 → t.ld.toNat ≤ 64 ∧ ∃ d ∈ D, Up t.rom t.ld.toNat d
  last : ∀ k, t.ld.toNat < k → k ≤ 64 → ∀ d ∈ D, ¬ Up t.rom k d

section Pass

variable {D : List (Vector Byte 8)} {s : State}

/-- On a bus with devices the reset slot is PRESENCE (95_test_vectors.md §1). -/
theorem searchBus_present (nonempty : D ≠ []) (trace : List BusEvent) :
    searchBus D trace .presence = false ∧ searchBus D trace .idle = true :=
  ⟨by simpa [searchBus] using nonempty, rfl⟩

/-- On a bus with valid devices, a pass from any session that is not done returns one: the device on its path. -/
theorem owSnext_returned (nonempty : D ≠ []) (valid : ∀ id ∈ D, validId id = true) (fresh : s.done = false) :
    Returned D (owSnext (searchBus D) s) ∧ OnPath (searchBus D) s 64 (owSnext (searchBus D) s).rom := by
  obtain ⟨b, hb, path⟩ := exists_onPath D s nonempty 64 le_rfl
  obtain ⟨n, pass⟩ := owSnext_passEnd fresh (searchBus_present nonempty s.trace)
  generalize owSnext (searchBus D) s = t at pass ⊢
  obtain rfl : n = 64 := completes_of_onPath hb path pass.completes
  obtain rfl : t.rom = b := rom_ext _ _ fun k pos le => by
    rw [pass.stored k pos le, if_pos le, path k pos le]
  have crc : t.crc = 0x00#8 := by
    rw [pass.crc, List.take_of_length_le (by simp)]
    simpa [validId] using valid _ hb
  obtain ⟨found, ld, done⟩ := (if_pos ⟨rfl, crc⟩).mp pass.session
  have last : t.ld.toNat = SearchSpec.marker (searchBus D) s 64 := by rw [ld, toNat_ofNat_marker]
  have atMost := marker_le (searchBus D) s 64
  refine ⟨⟨found, (congrArg State.phase pass.rest :), hb, done, fun collided => ?_, fun k after le d hd up => ?_⟩,
    path⟩
  · have marked : SearchSpec.marker (searchBus D) s 64 ≠ 0 := fun zero => collided (by rw [ld, zero])
    rw [last]
    exact ⟨atMost, (zeroBranch_iff_up hb path (Nat.pos_of_ne_zero marked) atMost).1 (zeroBranch_marker marked)⟩
  · rw [last] at after
    have zero := (zeroBranch_iff_up hb path (Nat.one_le_of_lt after) le).2 ⟨d, hd, up⟩
    rw [zeroBranch_after_marker after le] at zero
    cases zero

/-- LD other than 0 names an address bit (10_state.md R32). -/
theorem one_le_toNat_of_ne_zero {ld : BitVec 7} (h : ld ≠ 0#7) : 1 ≤ ld.toNat :=
  Nat.pos_of_ne_zero fun zero => h (BitVec.eq_of_toNat_eq zero)

/-- DONE = 1 says that no device comes after the one returned (43_romsearch.md R184). -/
theorem Returned.done_iff (h : Returned D s) : s.done = true ↔ ∀ d ∈ D, ¬ before s.rom d = true := by
  rw [h.done, decide_eq_true_iff]
  refine ⟨fun zero d hd after => ?_, fun none => by_contra fun collided => ?_⟩
  · obtain ⟨k, pos, le, up⟩ := (before_iff_up _ _).1 after
    exact h.last k (by rw [zero]; exact pos) le d hd up
  · obtain ⟨le, d, hd, up⟩ := h.exit collided
    exact none d hd (up.before (one_le_toNat_of_ne_zero collided) le)

/-- A pass after one that returned a device follows that device below LD and takes 1 at LD (43_romsearch.md R174):
the device it returns leaves the last one upwards at LD. -/
theorem Returned.up_next (h : Returned D s) (collided : s.ld ≠ 0#7) {b : Vector Byte 8}
    (path : OnPath (searchBus D) s 64 b) : Up s.rom s.ld.toNat b := by
  obtain ⟨le, d, hd, below, off, on⟩ := h.exit collided
  have pos := one_le_toNat_of_ne_zero collided
  have replay : ∀ k, k < s.ld.toNat → OnPath (searchBus D) s k s.rom := by
    intro k
    induction k with
    | zero => exact fun _ j hj hj' => by omega
    | succ k ih =>
      intro lt
      have upToK := ih (by omega)
      refine upToK.succ ?_
      obtain ⟨-, ⟨agree, -⟩ | ⟨-, -, dir, -⟩⟩ := dir_cases D s (k + 1) (by omega) (by omega) s.rom h.device upToK
      · exact agree s.rom h.device upToK
      · rw [dir, if_pos lt]
  have onPath := replay (s.ld.toNat - 1) (by omega)
  refine ⟨fun j hj hjk => (path j hj (by omega)).trans (onPath j hj (by omega)).symm, off, ?_⟩
  rw [path _ pos le]
  obtain ⟨-, ⟨agree, -⟩ | ⟨-, -, dir, -⟩⟩ := dir_cases D s _ pos le s.rom h.device onPath
  · rw [← agree d hd (fun j hj hjk => (below j hj (by omega)).trans (onPath j hj hjk)), on]
  · rw [dir, if_neg (lt_irrefl _), decide_eq_true rfl]

/-- From a fresh session a pass returns the first device of all (43_romsearch.md R190). -/
theorem owSnext_first (nonempty : D ≠ []) (valid : ∀ id ∈ D, validId id = true) (fresh : s.done = false)
    (ld : s.ld = 0#7) :
    ∀ d ∈ D, d = (owSnext (searchBus D) s).rom ∨ before (owSnext (searchBus D) s).rom d = true := by
  obtain ⟨returned, path⟩ := owSnext_returned nonempty valid fresh
  intro d hd
  exact eq_or_before_of_onPath_ld returned.device path hd fun j pos le => by
    rw [ld] at le
    exact absurd (pos.trans le) (Nat.not_succ_le_zero 0)

/-- From a session that is not done a pass returns the device that comes next (43_romsearch.md R190). -/
theorem Returned.owSnext_next (h : Returned D s) (nonempty : D ≠ []) (valid : ∀ id ∈ D, validId id = true)
    (more : s.done = false) (d : Vector Byte 8) (hd : d ∈ D) :
    before s.rom d = true ↔
      d = (owSnext (searchBus D) s).rom ∨ before (owSnext (searchBus D) s).rom d = true := by
  obtain ⟨returned, path⟩ := owSnext_returned nonempty valid more
  have collided : s.ld ≠ 0#7 := decide_eq_false_iff_not.1 (h.done.symm.trans more)
  have up := h.up_next collided path
  have le := (h.exit collided).1
  have after := up.before (one_le_toNat_of_ne_zero collided) le
  refine ⟨fun afterLast => ?_, fun next => next.elim (fun same => same ▸ after) (before_trans after)⟩
  obtain ⟨k, pos, kle, upD⟩ := (before_iff_up _ _).1 afterLast
  have within : k ≤ s.ld.toNat := not_lt.1 fun beyond => h.last k beyond kle d hd upD
  rcases Nat.lt_or_eq_of_le within with earlier | rfl
  · exact .inr ((up.of_earlier upD pos earlier).before pos kle)
  · exact eq_or_before_of_onPath_ld returned.device path hd fun j hj hjk =>
      (up.agree upD hj hjk).trans (path j hj (hjk.trans le))

/-! ### The discovery -/

/-- The discovery from `s` returns the devices `R`, each once and in ascending order, with DONE = 1 at the last one
and not before (43_romsearch.md R190). -/
structure Enumerates (o : Oracle) (s : State) (R : List (Vector Byte 8)) : Prop where
  perm : (discover o R.length s).1.Perm R
  ascending : (discover o R.length s).1.Pairwise fun a b => before a b = true
  found : (discover o R.length s).2.result = .found
  idle : (discover o R.length s).2.phase = .idle
  done : (discover o R.length s).2.done = true
  notBefore : ∀ n, n < R.length → (discover o n s).2.done = false

/-- A pass that completes FOUND returns its buffer, and the discovery goes on from there (90_conflicts.md C6). -/
theorem discover_succ {o : Oracle} (n : Nat) (found : (owSnext o s).result = .found) :
    discover o (n + 1) s =
      ((owSnext o s).rom :: (discover o n (owSnext o s)).1, (discover o n (owSnext o s)).2) :=
  if_pos found

/-- A pass that returns the first of the devices, and then a discovery of the others. -/
theorem Enumerates.cons {o : Oracle} {R : List (Vector Byte 8)} (more : s.done = false)
    (found : (owSnext o s).result = .found) (mem : (owSnext o s).rom ∈ R)
    (first : ∀ d ∈ R.erase (owSnext o s).rom, before (owSnext o s).rom d = true)
    (rest : Enumerates o (owSnext o s) (R.erase (owSnext o s).rom)) : Enumerates o s R := by
  obtain ⟨perm, ascending, foundLast, idle, done, notBefore⟩ := rest
  have all := discover_succ (R.erase (owSnext o s).rom).length found
  rw [List.length_erase_add_one mem] at all
  refine ⟨?_, ?_, ?_, ?_, ?_, fun n lt => ?_⟩
  · rw [all]
    exact (perm.cons _).trans (List.perm_cons_erase mem).symm
  · rw [all]
    exact ascending.cons fun d hd => first d (perm.mem_iff.1 hd)
  · rw [all, foundLast]
  · rw [all, idle]
  · rw [all, done]
  · cases n with
    | zero => exact more
    | succ n =>
      rw [discover_succ n found]
      rw [← List.length_erase_add_one mem] at lt
      exact notBefore n (Nat.lt_of_succ_lt_succ lt)

/-- The devices that come after the one returned are those still to be found without it. -/
theorem filter_before_eq_erase {p : Vector Byte 8 → Bool} {b : Vector Byte 8} (distinct : D.Nodup)
    (next : ∀ d ∈ D, p d = true ↔ d = b ∨ before b d = true) : D.filter (before b) = (D.filter p).erase b := by
  rw [(distinct.filter p).erase_eq_filter, List.filter_filter]
  refine List.filter_congr fun d hd => Bool.eq_iff_iff.2 ?_
  rw [Bool.and_eq_true, next d hd, bne_iff_ne]
  exact ⟨fun after => ⟨fun same => before_irrefl b (same ▸ after), .inr after⟩,
    fun ⟨other, at_⟩ => at_.resolve_left other⟩

/-- A pass that returns the first of the devices still to be found leaves those that come after it. -/
theorem enumerates_of_first {p : Vector Byte 8 → Bool} (distinct : D.Nodup) (more : s.done = false)
    (returned : Returned D (owSnext (searchBus D) s))
    (next : ∀ d ∈ D, p d = true ↔
      d = (owSnext (searchBus D) s).rom ∨ before (owSnext (searchBus D) s).rom d = true)
    (rest : Enumerates (searchBus D) (owSnext (searchBus D) s)
      (D.filter (before (owSnext (searchBus D) s).rom))) : Enumerates (searchBus D) s (D.filter p) := by
  have others := filter_before_eq_erase distinct next
  rw [others] at rest
  refine rest.cons more returned.found ?_ ?_
  · exact List.mem_filter.2 ⟨returned.device, (next _ returned.device).2 (.inl rfl)⟩
  · rw [← others]
    exact fun d hd => (List.mem_filter.1 hd).2

/-- After a device was returned, the discovery returns those that come after it, by induction on their number. -/
theorem Returned.enumerates (distinct : D.Nodup) (valid : ∀ id ∈ D, validId id = true) (h : Returned D s) :
    Enumerates (searchBus D) s (D.filter (before s.rom)) := by
  induction count : (D.filter (before s.rom)).length generalizing s with
  | zero =>
    have none := List.eq_nil_of_length_eq_zero count
    have done : s.done = true := h.done_iff.2 (List.filter_eq_nil_iff.1 none)
    rw [none]
    exact ⟨.nil, .nil, h.found, h.idle, done, fun n lt => absurd lt n.not_lt_zero⟩
  | succ n ih =>
    have more : s.done = false := by
      rw [← Bool.not_eq_true, h.done_iff, ← List.filter_eq_nil_iff]
      exact List.ne_nil_of_length_eq_add_one count
    have nonempty := List.ne_nil_of_mem h.device
    have returned := (owSnext_returned nonempty valid more).1
    have next := h.owSnext_next nonempty valid more
    have mem : (owSnext (searchBus D) s).rom ∈ D.filter (before s.rom) :=
      List.mem_filter.2 ⟨returned.device, (next _ returned.device).2 (.inl rfl)⟩
    refine enumerates_of_first distinct more returned next (ih returned ?_)
    rw [filter_before_eq_erase distinct next, List.length_erase_of_mem mem, count, Nat.add_sub_cancel]

end Pass

/-- Settles O29: the device returned is the only one, and so none comes after it, whatever LD was. -/
theorem singleDeviceIsFound : Obligations.SingleDeviceIsFound := by
  intro id s valid _ fresh
  obtain ⟨returned, -⟩ := owSnext_returned (D := [id]) (by simp) (by simpa using valid) fresh
  have rom := List.mem_singleton.1 returned.device
  have done : (owSnext (searchBus [id]) s).done = true := returned.done_iff.2 fun d hd => by
    rw [rom, List.mem_singleton.1 hd]
    exact before_irrefl id
  exact ⟨returned.found, rom, of_decide_eq_true (returned.done.symm.trans done), done⟩

/-- Settles O30: the first pass returns the first device, and the discovery goes on from there; a pass after it
takes the done path. -/
theorem discoveryEnumeratesEveryDevice : Obligations.DiscoveryEnumeratesEveryDevice := by
  intro D s nonempty distinct valid
  have returned := (owSnext_returned (s := owSrst s) nonempty valid rfl).1
  have all : Enumerates (searchBus D) (owSrst s) (D.filter fun _ => true) :=
    enumerates_of_first distinct rfl returned
      (fun d hd => ⟨fun _ => owSnext_first nonempty valid rfl rfl d hd, fun _ => rfl⟩)
      (returned.enumerates distinct valid)
  rw [List.filter_true] at all
  obtain ⟨perm, ascending, found, idle, done, notBefore⟩ := all
  refine ⟨perm, ascending, found, done, notBefore, ?_⟩
  rw [owSnext_of_done _ done, complete, ← idle]

end Sys2Proof.RefBus
